-- ==== Sys2Proof/Word.lean ====
section
/-! DEFINITION. The machine's one data width. Every register, address and memory cell is a byte, an
unsigned number in 0 to 255, and all arithmetic on it is mod 256 (00_scope.md R6): `BitVec 8` with its
own `+`, `-`, `*`, `&&&`, `|||`, `~~~`. Nothing in the machine treats a byte as signed (R6, R75). -/

namespace Sys2Proof

/-- A byte (R6). Bit 0 is the least significant bit (R5). -/
abbrev Byte := BitVec 8

end Sys2Proof
end

