-- ==== Sys2Proof/Syntax.lean ====
section
/-! DEFINITION. The instructions as data: general registers, the thirteen mnemonics of 30_encoding.md R49
and one constructor of `Instr` per row of spec/opcode_table.json, in the table's order. -/

namespace Sys2Proof

/-- The eight general registers R0 to R7 (10_state.md R11). -/
inductive Reg where
  | r0 | r1 | r2 | r3 | r4 | r5 | r6 | r7
deriving DecidableEq, Repr

namespace Reg

/-- All registers, in ascending order. -/
def all : List Reg := [r0, r1, r2, r3, r4, r5, r6, r7]

/-- IM, the Interrupt Mask, is R5 (10_state.md R13, R14). -/
abbrev im : Reg := r5
/-- IS, the Interrupt Status, is R6 (10_state.md R13, R15). -/
abbrev is : Reg := r6
/-- SP, the Stack Pointer, is R7 (10_state.md R13, R16). -/
abbrev sp : Reg := r7

end Reg

/-- The thirteen instruction names, in the order of the table of 30_encoding.md R49. -/
inductive Mnemonic where
  | ldi | mul | add | push | pop | call | jmp | ret | iret | prn | pra | st | hlt
deriving DecidableEq, Repr

/-- Every mnemonic, in the order of R49 and of the `case` of R64. -/
def Mnemonic.all : List Mnemonic :=
  [.ldi, .mul, .add, .push, .pop, .call, .jmp, .ret, .iret, .prn, .pra, .st, .hlt]

/-- An instruction, with its operands decoded (30_encoding.md R46, R48). -/
inductive Instr where
  /-- LDI, load immediate (R69): destination register, 8-bit immediate. -/
  | ldi (rA : Reg) (imm : Byte)
  /-- MUL, multiply (R73): destination and first source, second source. -/
  | mul (rA rB : Reg)
  /-- ADD, add (R74): destination and first source, second source. -/
  | add (rA rB : Reg)
  /-- PUSH, push register (R79): source. -/
  | push (rA : Reg)
  /-- POP, pop into register (R80): destination. -/
  | pop (rA : Reg)
  /-- CALL, call the subroutine whose address a register holds (R81). -/
  | call (rA : Reg)
  /-- JMP, jump to the address a register holds (R82). -/
  | jmp (rA : Reg)
  /-- RET, return from subroutine (R83). -/
  | ret
  /-- IRET, return from interrupt (R85). -/
  | iret
  /-- PRN, print register as a number (R86). -/
  | prn (rA : Reg)
  /-- PRA, print register as a character (R87). -/
  | pra (rA : Reg)
  /-- ST, store register to memory (R70): address register, data register. -/
  | st (rA rB : Reg)
  /-- HLT, halt (R88). -/
  | hlt
  /-- UNDEF, the decoder's default arm (R65): the opcode byte that matched no instruction. -/
  | undef (ir : Byte)
deriving DecidableEq, Repr

/-- The mnemonic of an instruction; an unrecognised opcode has none. -/
def Instr.mnemonic : Instr → Option Mnemonic
  | .ldi _ _ => some .ldi
  | .mul _ _ => some .mul
  | .add _ _ => some .add
  | .push _ => some .push
  | .pop _ => some .pop
  | .call _ => some .call
  | .jmp _ => some .jmp
  | .ret => some .ret
  | .iret => some .iret
  | .prn _ => some .prn
  | .pra _ => some .pra
  | .st _ _ => some .st
  | .hlt => some .hlt
  | .undef _ => none

end Sys2Proof
end

