-- ==== Sys2Proof/Config.lean ====
section
/-! DEFINITION. What an implementation fixes: the parameters of 00_scope.md R4 that a model takes as
arguments (`Params`) with the output events they speak of, the reset constants of 10_state.md R26 and what an
unlisted memory byte reads as. The default values of `Params` stand in Decode.lean and Machine/Text.lean. The
spec leaves no value undefined after an instruction; the one free value here is the text after a printed
numeral. -/

namespace Sys2Proof

/-- An event of the output port (10_state.md R24). -/
inductive Machine.OutEvent where
  /-- `Dec(v)`: PRN hands over the byte to be shown as a decimal integer (45_system.md R86). -/
  | dec (v : Byte)
  /-- `Chr(v)`: PRA hands over the byte to be shown as a character (45_system.md R87). -/
  | chr (v : Byte)
deriving DecidableEq, Repr

/-- The parameters of the hardware that the engine's behaviour depends on (00_scope.md R4). -/
structure Params where
  /-- `OPC`, the opcode byte of each mnemonic (30_encoding.md R50; D2, log 1). -/
  opc : Mnemonic → Byte
  /-- `ENTRY_TICK_EXECUTES`: whether the tick that enters a handler goes on to fetch and execute
  (40_cycle_engine.md R68; D5, log 7). -/
  entryTickExecutes : Bool
  /-- `OUT_RENDER`, the text the output device makes of the output stream (00_scope.md R4, 45_system.md R86, R87;
  D9, log 10): what follows a numeral, how a code point above 127 is encoded and whether control codes are passed
  raw are all its own. -/
  outRender : List Machine.OutEvent → String

namespace Config

/-- SP after reset (10_state.md R26: "SP initialized to 0xF4"; D20, log 18). -/
def spReset : Byte := 0xF4#8
/-- The Program Counter after reset, the reset vector (10_state.md R26: "PC to 0"). -/
def pcReset : Byte := 0x00#8
/-- IE after reset (10_state.md R26: "interrupts enabled"). -/
def ieReset : Bool := true
/-- R0 to R6 after reset. DESIGN CHOICE, unsafe (log 4): the source states none, R26 takes zero by D7. -/
def regReset : Byte := 0x00#8
/-- PCF after reset. DESIGN CHOICE, unsafe (log 4): R26 takes 0 by D7. -/
def pcfReset : Bool := false
/-- HALT after reset. DESIGN CHOICE, unsafe (log 4, log 8): R26 takes 0 by D6 and D7. -/
def haltReset : Bool := false
/-- What a byte of memory that nothing has written reads as: the "pre-zeroed" memory of 10_state.md R26.
DESIGN CHOICE, unsafe (log 3): `INIT_MEM` is a parameter (D7), and `Event.load` and `Event.reset` take any. -/
def unlistedByte : Byte := 0x00#8
/-- What the output device adds after a numeral in the default `OUT_RENDER`. A free value: the spec leaves it
open (45_system.md R86, D9; log 10), and nothing says what it is. -/
opaque decTerminator : String

end Config

end Sys2Proof
end

