-- ==== Sys2Proof/Machine/Text.lean ====
section
/-! DEFINITION. The text forms the spec gives: the default of the parameter `OUT_RENDER`
(00_scope.md R4; D9, D16, log 10), and the assembler form of an instruction (30_encoding.md R55; D12, log 22). Neither
is read by the machine. -/

namespace Sys2Proof.Machine

/-- The default text of one output event. `Dec(v)` is the decimal numeral of the unsigned value followed by whatever
the device adds, which the spec leaves open and which is the argument `terminator`; `Chr(v)` is the one
character with code point `v`, with nothing after it (45_system.md R86, R87). -/
def renderEvent (terminator : String) : OutEvent → String
  | .dec v => toString v.toNat ++ terminator
  | .chr v => String.singleton (Char.ofNat v.toNat)

/-- The default text of an output stream, oldest event first (D9). -/
def renderOut (terminator : String) (out : List OutEvent) : String :=
  String.join (out.map (renderEvent terminator))

/-- A register's assembler name (R55). -/
def regText : Reg → String
  | .r0 => "R0"
  | .r1 => "R1"
  | .r2 => "R2"
  | .r3 => "R3"
  | .r4 => "R4"
  | .r5 => "R5"
  | .r6 => "R6"
  | .r7 => "R7"

/-- An instruction's assembler form; an unrecognised byte is a data byte (R55, R56). -/
def instrText : Instr → String
  | .ldi rA imm => "LDI " ++ regText rA ++ ", " ++ toString imm.toNat
  | .mul rA rB => "MUL " ++ regText rA ++ ", " ++ regText rB
  | .add rA rB => "ADD " ++ regText rA ++ ", " ++ regText rB
  | .push rA => "PUSH " ++ regText rA
  | .pop rA => "POP " ++ regText rA
  | .call rA => "CALL " ++ regText rA
  | .jmp rA => "JMP " ++ regText rA
  | .ret => "RET"
  | .iret => "IRET"
  | .prn rA => "PRN " ++ regText rA
  | .pra rA => "PRA " ++ regText rA
  | .st rA rB => "ST " ++ regText rA ++ ", " ++ regText rB
  | .hlt => "HLT"
  | .undef ir => "DB " ++ toString ir.toNat

end Sys2Proof.Machine
end

