-- ==== Sys2Proof/WellFormed.lean ====
section
/-! DEFINITION. Which terms of `Instr` stand for an instruction the hardware can read. Register indices and
immediates are well formed by their types; the one check is that UNDEF carries a byte that is none of the
thirteen opcode values (30_encoding.md R51, 40_cycle_engine.md R65). -/

namespace Sys2Proof

/-- The byte is none of the thirteen opcode values (R51). -/
def Params.unrecognised (p : Params) (ir : Byte) : Bool :=
  Mnemonic.all.all fun m => p.opc m != ir

/-- The instruction is one that some bytes of memory decode to, under the opcode assignment of `p`. -/
def Instr.wellFormed (p : Params) : Instr → Bool
  | .ldi _ _ => true
  | .mul _ _ => true
  | .add _ _ => true
  | .push _ => true
  | .pop _ => true
  | .call _ => true
  | .jmp _ => true
  | .ret => true
  | .iret => true
  | .prn _ => true
  | .pra _ => true
  | .st _ _ => true
  | .hlt => true
  | .undef ir => p.unrecognised ir

end Sys2Proof
end

