-- ==== Sys2Proof/Decode.lean ====
section
/-! DEFINITION. The encoding of 30_encoding.md: the opcode byte's operand count (R45), the default opcode
assignment (R49) and what every assignment must satisfy (R50), register indices (R48), the decoder, which is
total on the three fetched bytes (R60) and rejects by name a byte list that is too short, and the encoder.
Everything is stated for any `Params`; the machine runs with `Params.default`. -/

namespace Sys2Proof

/-! ## The opcode byte -/

/-- `N`, bits 7:6 of the opcode byte: the operand count (R45). -/
def countField (ir : Byte) : BitVec 2 := ir.extractLsb' 6 2

/-- The length the advance stage uses, `1 + IR[7:6]` (40_cycle_engine.md R62, R54). -/
def opcodeLength (ir : Byte) : Byte := 1#8 + (countField ir).setWidth 8

/-- The operand count `N` of each instruction: format F0, F1 or F2 (R46, R49). -/
def Mnemonic.operandCount : Mnemonic → BitVec 2
  | .ldi => 2
  | .mul => 2
  | .add => 2
  | .push => 1
  | .pop => 1
  | .call => 1
  | .jmp => 1
  | .ret => 0
  | .iret => 0
  | .prn => 1
  | .pra => 1
  | .st => 2
  | .hlt => 0

/-- The default opcode bytes, column "default `OPC` byte" of R49. PRESUMED, unsafe (log 1): the spec takes
them from general knowledge (D2, G1). -/
def defaultOpc : Mnemonic → Byte
  | .ldi => 0x99#8
  | .mul => 0xAA#8
  | .add => 0xA8#8
  | .push => 0x4D#8
  | .pop => 0x4C#8
  | .call => 0x48#8
  | .jmp => 0x50#8
  | .ret => 0x09#8
  | .iret => 0x0B#8
  | .prn => 0x43#8
  | .pra => 0x42#8
  | .st => 0x9A#8
  | .hlt => 0x01#8

/-- The choice of D5: the tick that enters a handler goes on to fetch and execute there (R68).
DESIGN CHOICE, unsafe (log 7). -/
def defaultEntryTickExecutes : Bool := true

/-- The parameters the machine runs with. -/
def Params.default : Params :=
  { opc := defaultOpc, entryTickExecutes := defaultEntryTickExecutes
    outRender := Machine.renderOut Config.decTerminator }

/-- The constraints on `OPC` (R50): (a) no two instructions share a byte; (b) bits 7:6 are the operand count. -/
def Params.Admissible (p : Params) : Prop :=
  (∀ m n : Mnemonic, p.opc m = p.opc n → m = n) ∧ ∀ m : Mnemonic, countField (p.opc m) = m.operandCount

/-! ## Operand bytes -/

/-- The register of a 3-bit index (R48). -/
def Reg.ofIndex (i : BitVec 3) : Reg :=
  match i.toNat with
  | 0 => .r0
  | 1 => .r1
  | 2 => .r2
  | 3 => .r3
  | 4 => .r4
  | 5 => .r5
  | 6 => .r6
  | _ => .r7

/-- The register an operand byte selects: its low three bits, bits 7:3 ignored (R48).
DESIGN CHOICE, unsafe (log 5): the spec's own decision D3. -/
def Reg.ofByte (b : Byte) : Reg := Reg.ofIndex (b.extractLsb' 0 3)

/-- The operand byte of a register, 0x00 to 0x07 (R48). -/
def Reg.toByte : Reg → Byte
  | .r0 => 0x00#8
  | .r1 => 0x01#8
  | .r2 => 0x02#8
  | .r3 => 0x03#8
  | .r4 => 0x04#8
  | .r5 => 0x05#8
  | .r6 => 0x06#8
  | .r7 => 0x07#8

/-! ## The decoder -/

/-- The decode stage's comparison (R60): the mnemonic whose opcode value the byte equals, if any. -/
def mnemonicOf (p : Params) (ir : Byte) : Option Mnemonic :=
  Mnemonic.all.find? fun m => p.opc m == ir

/-- The instruction of a mnemonic with the operand bytes `opA` and `opB`, each read as R49 says. -/
def Instr.ofMnemonic (m : Mnemonic) (opA opB : Byte) : Instr :=
  match m with
  | .ldi => .ldi (Reg.ofByte opA) opB
  | .mul => .mul (Reg.ofByte opA) (Reg.ofByte opB)
  | .add => .add (Reg.ofByte opA) (Reg.ofByte opB)
  | .push => .push (Reg.ofByte opA)
  | .pop => .pop (Reg.ofByte opA)
  | .call => .call (Reg.ofByte opA)
  | .jmp => .jmp (Reg.ofByte opA)
  | .ret => .ret
  | .iret => .iret
  | .prn => .prn (Reg.ofByte opA)
  | .pra => .pra (Reg.ofByte opA)
  | .st => .st (Reg.ofByte opA) (Reg.ofByte opB)
  | .hlt => .hlt

/-- Decode of the three fetched bytes (R47, R60): total, the default arm is UNDEF (R51, R65). -/
def decodeFetched (p : Params) (ir opA opB : Byte) : Instr :=
  match mnemonicOf p ir with
  | some m => Instr.ofMnemonic m opA opB
  | none => .undef ir

/-- Why a list of bytes holds no whole instruction. The machine itself never meets one of these: its fetch
always reads three bytes (R47). -/
inductive DecodeError where
  /-- The list is empty. -/
  | noOpcode
  /-- The opcode of an instruction with an operand A is the last byte. -/
  | noOperandA (m : Mnemonic)
  /-- The list ends before the instruction's operand B. -/
  | noOperandB (m : Mnemonic)
deriving DecidableEq, Repr

/-- The instruction at the start of a list of bytes (R44, R46). Bytes after the instruction are not looked
at; UNDEF needs its opcode byte only. -/
def decodeWith (p : Params) : List Byte → Except DecodeError Instr
  | [] => .error .noOpcode
  | ir :: rest =>
    match mnemonicOf p ir with
    | none => .ok (.undef ir)
    | some m =>
      match m.operandCount.toNat, rest with
      | 0, _ => .ok (Instr.ofMnemonic m 0 0)
      | _, [] => .error (.noOperandA m)
      | 1, opA :: _ => .ok (Instr.ofMnemonic m opA 0)
      | _, [_] => .error (.noOperandB m)
      | _, opA :: opB :: _ => .ok (Instr.ofMnemonic m opA opB)

/-- Decoding with the machine's own parameters. -/
def decode (bytes : List Byte) : Except DecodeError Instr := decodeWith Params.default bytes

/-! ## The encoder -/

/-- The bytes of an instruction (R46, R49); of UNDEF the opcode byte alone (R65: no operand is used). -/
def encodeWith (p : Params) : Instr → List Byte
  | .ldi rA imm => [p.opc .ldi, rA.toByte, imm]
  | .mul rA rB => [p.opc .mul, rA.toByte, rB.toByte]
  | .add rA rB => [p.opc .add, rA.toByte, rB.toByte]
  | .push rA => [p.opc .push, rA.toByte]
  | .pop rA => [p.opc .pop, rA.toByte]
  | .call rA => [p.opc .call, rA.toByte]
  | .jmp rA => [p.opc .jmp, rA.toByte]
  | .ret => [p.opc .ret]
  | .iret => [p.opc .iret]
  | .prn rA => [p.opc .prn, rA.toByte]
  | .pra rA => [p.opc .pra, rA.toByte]
  | .st rA rB => [p.opc .st, rA.toByte, rB.toByte]
  | .hlt => [p.opc .hlt]
  | .undef ir => [ir]

/-- Encoding with the machine's own parameters. -/
def encode (i : Instr) : List Byte := encodeWith Params.default i

/-! ## Words numbered as spec/opcode_table.json numbers them -/

/-- Byte `k` of a table word of `nbits` bits: bit 0 of the word is bit 0 of the opcode byte, operand bytes
count on from it, and every bit above `nbits` is 0. -/
def tableByte (nbits w k : Nat) : Byte := BitVec.ofNat 8 ((w % 2 ^ nbits) >>> (8 * k))

/-- The three bytes the fetch reads of a table word, at ascending addresses (R33, R47). -/
def tableBytes (nbits w : Nat) : List Byte := [tableByte nbits w 0, tableByte nbits w 1, tableByte nbits w 2]

/-- The instruction the decoder reads from a table word. -/
def decodeTableWord (nbits w : Nat) : Option Instr :=
  match decode (tableBytes nbits w) with
  | .ok i => some i
  | .error _ => none

end Sys2Proof
end

