-- ==== Sys2Proof/Machine/State.lean ====
section
/-! DEFINITION. The state of the machine (10_state.md R10), plain data, and its value after reset (R26),
with the closed types of the reasons a step could stop. -/

namespace Sys2Proof.Machine

/-- The register file, R0 to R7, eight bits each (10_state.md R11). -/
structure RegFile where
  r0 : Byte
  r1 : Byte
  r2 : Byte
  r3 : Byte
  r4 : Byte
  /-- IM, the Interrupt Mask (R14). -/
  r5 : Byte
  /-- IS, the Interrupt Status (R15). -/
  r6 : Byte
  /-- SP, the Stack Pointer (R16). -/
  r7 : Byte
deriving DecidableEq, Repr

/-- Memory, 256 one-byte cells (10_state.md R25, 20_memory.md R28), as the list of the cells whose byte is
not `Config.unlistedByte`, by strictly rising address. -/
abbrev Memory := List Host.Cell

/-- The canonical form of a memory: addresses strictly rising and below 256 (R28), no byte listed that an
unlisted address reads as. -/
abbrev Memory.wf (m : Memory) : Prop :=
  m.Pairwise (fun c d => c.1 < d.1) ∧ ∀ c ∈ m, c.1 < 256 ∧ c.2 ≠ Config.unlistedByte

/-- The complete state (10_state.md R10). -/
structure State where
  /-- R0 to R7 (R11). -/
  regs : RegFile
  /-- The Program Counter (R17). -/
  pc : Byte
  /-- `IE`, interrupts-enabled (R19). -/
  ie : Bool
  /-- `PCF`, PCflag (R20). -/
  pcf : Bool
  /-- `HALT`, the driving clock is stopped (R21). -/
  halt : Bool
  /-- `M`, the memory (R25). -/
  mem : Memory
  /-- `OUT`, everything PRN and PRA have emitted, oldest first (R24). -/
  out : List OutEvent
deriving DecidableEq, Repr

/-- The reasons the machine can stop with a fault: NONE. "The machine raises no synchronous exception"
(60_exceptions.md R90); no instruction, address or byte of memory faults, so the type has no constructor.
Nobody raises it; safe, since nothing is claimed through it. -/
inductive Fault where
deriving DecidableEq, Repr

/-- The reasons the model can refuse to give a step a meaning. -/
inductive Refusal where
  /-- An instruction with no meaning yet. Only an arm of `exec` could raise it, and none does: every row of
  the opcode table has its meaning. Safe: a refused step proves nothing. -/
  | notModelled (mnemonic : String)
deriving DecidableEq, Repr

/-- The register file after reset (10_state.md R26). -/
def RegFile.reset : RegFile :=
  { r0 := Config.regReset, r1 := Config.regReset, r2 := Config.regReset, r3 := Config.regReset
    r4 := Config.regReset, r5 := Config.regReset, r6 := Config.regReset, r7 := Config.spReset }

/-- The machine right after reset (10_state.md R26, 70_reset_and_hazards.md R112), with the pre-zeroed
memory image (log 3). -/
def State.reset : State :=
  { regs := RegFile.reset, pc := Config.pcReset, ie := Config.ieReset, pcf := Config.pcfReset
    halt := Config.haltReset, mem := [], out := [] }

end Sys2Proof.Machine
end

