-- ==== Sys2Proof/Machine/Operands.lean ====
section
/-! DEFINITION. Every operand form of the instruction set (30_encoding.md R48): a general register, read and
written through the two operations here and nowhere else, and LDI's immediate, which is used as it stands.
No register is hard-wired (10_state.md R11); IM, IS and SP are R5, R6 and R7, the same storage (R13). -/

namespace Sys2Proof.Machine

/-- `get` of the register file's contract (10_state.md R11). -/
def RegFile.get (f : RegFile) : Reg → Byte
  | .r0 => f.r0
  | .r1 => f.r1
  | .r2 => f.r2
  | .r3 => f.r3
  | .r4 => f.r4
  | .r5 => f.r5
  | .r6 => f.r6
  | .r7 => f.r7

/-- `set` of the register file's contract (10_state.md R11, R12). -/
def RegFile.set (f : RegFile) (r : Reg) (v : Byte) : RegFile :=
  match r with
  | .r0 => { f with r0 := v }
  | .r1 => { f with r1 := v }
  | .r2 => { f with r2 := v }
  | .r3 => { f with r3 := v }
  | .r4 => { f with r4 := v }
  | .r5 => { f with r5 := v }
  | .r6 => { f with r6 := v }
  | .r7 => { f with r7 := v }

/-- `x[i]` (00_scope.md R7). -/
def State.reg (s : State) (r : Reg) : Byte := s.regs.get r

/-- `x[i] <- v` (00_scope.md R7). -/
def State.setReg (s : State) (r : Reg) (v : Byte) : State := { s with regs := s.regs.set r v }

/-- LDI's operand B: the immediate byte, no extension and no scaling (30_encoding.md R48). -/
def immediate (imm : Byte) : Byte := imm

end Sys2Proof.Machine
end

