-- ==== Sys2Proof/Machine/Flags.lean ====
section
/-! DEFINITION. The one-bit state elements PCF, IE and HALT (10_state.md R19 to R21) and every computation on
bit masks the Interrupt Controller makes (60_exceptions.md R92 to R95). The machine has no condition codes
(10_state.md R23). -/

namespace Sys2Proof.Machine

/-- `pc <- target` (00_scope.md R7). -/
def State.setPc (s : State) (target : Byte) : State := { s with pc := target }

/-- `IE <- b` (10_state.md R19). -/
def State.setIe (s : State) (b : Bool) : State := { s with ie := b }

/-- `PCF <- b` (10_state.md R20). -/
def State.setPcf (s : State) (b : Bool) : State := { s with pcf := b }

/-- `HALT <- b` (10_state.md R21). -/
def State.setHalt (s : State) (b : Bool) : State := { s with halt := b }

/-- An interrupt source, 0 to 7, one per bit of IS and IM (60_exceptions.md R91). -/
abbrev Source := Fin 8

/-- `1 << i`, the byte with only bit `i` set (00_scope.md R6). -/
def sourceBit (i : Source) : Byte := 1#8 <<< i.val

/-- `pending = IS & IM` (60_exceptions.md R93). -/
def State.pending (s : State) : Byte := s.reg .is &&& s.reg .im

/-- The lowest-numbered set bit of a byte: the scan of bits 0 to 7 in ascending order (60_exceptions.md R94). -/
def lowestSet (b : Byte) : Option Source :=
  ([0, 1, 2, 3, 4, 5, 6, 7] : List Source).find? fun i => b.getLsbD i.val

/-- The source this tick's interrupt check services, if any: IE, then the lowest set bit of `pending`
(60_exceptions.md R93, R94). -/
def State.serviced (s : State) : Option Source :=
  if s.ie then lowestSet s.pending else none

/-- `x[6] <- x[6] & ~(1 << i)`: the serviced bit of IS is acknowledged (60_exceptions.md R95 step 2). -/
def State.clearPending (s : State) (i : Source) : State := s.setReg .is (s.reg .is &&& ~~~(sourceBit i))

/-- `x[6] <- x[6] | (1 << i)`: source `i` becomes pending (60_exceptions.md R92). -/
def State.setPending (s : State) (i : Source) : State := s.setReg .is (s.reg .is ||| sourceBit i)

end Sys2Proof.Machine
end

