-- ==== Sys2Proof/Machine/Ops.lean ====
section
/-! DEFINITION. The shared operations: the memory port (20_memory.md R29), the Stack Unit (43_stack.md R76,
R77), the ALU (42_alu.md R71, R72), the output port (10_state.md R24), taking an interrupt (60_exceptions.md
R95) and returning from one (45_system.md R85). -/

namespace Sys2Proof.Machine

/-! ## The memory port -/

/-- `MemRead(addr, 1)`: the byte at an address; an unlisted one reads `Config.unlistedByte` (R29). -/
def Memory.read (m : Memory) (a : Byte) : Byte :=
  match m with
  | [] => Config.unlistedByte
  | c :: m => if c.1 = a.toNat then c.2 else Memory.read m a

/-- A cell put in front of the first one with no lower address. -/
def Memory.insertCell (k : Nat) (v : Byte) : Memory → Memory
  | [] => [(k, v)]
  | c :: m => if c.1 < k then c :: Memory.insertCell k v m else (k, v) :: c :: m

/-- The memory without the cell `k`. -/
def Memory.erase (m : Memory) (k : Nat) : Memory := m.filter fun c => c.1 != k

/-- `MemWrite(addr, 1, v)`: the addressed cell and no other (R29, R31). The canonical form is kept: a byte that
an unlisted address reads as is not listed. -/
def Memory.write (m : Memory) (a v : Byte) : Memory :=
  if v = Config.unlistedByte then Memory.erase m a.toNat
  else Memory.insertCell a.toNat v (Memory.erase m a.toNat)

/-- `M[addr]` of the state. -/
def State.readMem (s : State) (a : Byte) : Byte := Memory.read s.mem a

/-- `M[addr] <- v` on the state. -/
def State.writeMem (s : State) (a v : Byte) : State := { s with mem := Memory.write s.mem a v }

/-! ## The Stack Unit -/

/-- The address a push stores at: the decremented SP (R76). -/
def State.pushAddr (s : State) : Byte := s.reg .sp - 1#8

/-- `Push(v)`: SP is decremented first, then the byte is stored at the new SP (R76). -/
def State.push (s : State) (v : Byte) : State :=
  let t := s.setReg .sp s.pushAddr
  t.writeMem (t.reg .sp) v

/-- `Pop()`: the byte at the old SP, and the state with SP incremented (R77). -/
def State.pop (s : State) : Byte × State :=
  (s.readMem (s.reg .sp), s.setReg .sp (s.reg .sp + 1#8))

/-- The pushes of some registers, in the order of the list (R95 step 4). -/
def State.pushRegs (s : State) (rs : List Reg) : State :=
  rs.foldl (fun t r => t.push (t.reg r)) s

/-- `x[r] <- Pop()` for some registers, in the order of the list (R85). -/
def State.popRegs (s : State) (rs : List Reg) : State :=
  rs.foldl (fun t r => (t.pop).2.setReg r (t.pop).1) s

/-! ## The ALU -/

/-- The operations a caller may name to the ALU (R71). `undefinedOp` is any other operation name (R72), which
no instruction uses. -/
inductive AluOp where
  | add
  | mul
  | undefinedOp (code : Byte)
deriving DecidableEq, Repr

/-- The byte the ALU writes back into the destination register, given its old value `a` and the source `b`
(R71); an undefined operation leaves the destination as it was (R72; D15, log 17). -/
def alu (op : AluOp) (a b : Byte) : Byte :=
  match op with
  | .add => a + b
  | .mul => a * b
  | .undefinedOp _ => a

/-- `apply(op, destReg, srcReg)`: both sources are read before the destination is written (R71, R73). -/
def State.aluApply (s : State) (op : AluOp) (dest src : Reg) : State :=
  s.setReg dest (alu op (s.reg dest) (s.reg src))

/-! ## The output port -/

/-- `Emit(e)`: one event appended to OUT (00_scope.md R7, 10_state.md R24). -/
def State.emit (s : State) (e : OutEvent) : State := { s with out := s.out ++ [e] }

/-! ## Interrupts -/

/-- The base of the Interrupt Vector Table (20_memory.md R37; D20, log 18). -/
def vecBase : Byte := 0xF8#8

/-- The address of source `i`'s vector-table entry, `0xF8 + i` (20_memory.md R37). -/
def vectorAddr (i : Source) : Byte := vecBase + BitVec.ofNat 8 i.val

/-- The registers an interrupt frame holds, in the order they are pushed (60_exceptions.md R95 step 4). -/
def frameRegs : List Reg := [.r0, .r1, .r2, .r3, .r4, .r5, .r6]

/-- Taking the interrupt of source `i`, the seven steps of 60_exceptions.md R95: IE cleared, the IS bit
cleared, pc and R0 to R6 pushed (R6 after its bit is cleared), pc loaded from the vector table (read after
the pushes, R97), PCF set. -/
def State.takeInterrupt (s : State) (i : Source) : State :=
  let acknowledged := (s.setIe false).clearPending i
  let framed := (acknowledged.push acknowledged.pc).pushRegs frameRegs
  (framed.setPc (framed.readMem (vectorAddr i))).setPcf true

/-- Returning from an interrupt (45_system.md R85): `IE <- 1`, R6 down to R0 popped, pc popped, `PCF <- 1`. -/
def State.returnFromInterrupt (s : State) : State :=
  let restored := (s.setIe true).popRegs frameRegs.reverse
  ((restored.pop).2.setPc (restored.pop).1).setPcf true

/-- Stage 1 of a tick (40_cycle_engine.md R58, 60_exceptions.md R95). -/
def State.interruptCheck (s : State) : State :=
  match s.serviced with
  | some i => s.takeInterrupt i
  | none => s

end Sys2Proof.Machine
end

