-- ==== Sys2Proof/Machine/Arithmetic.lean ====
section
/-! DEFINITION. The ALU instructions MUL and ADD (42_alu.md R73, R74). Each meaning is the execute stage alone. -/

namespace Sys2Proof.Machine

/-- MUL: `x[rA] <- x[rA] *8 x[rB]` (R73). -/
def execMul (rA rB : Reg) (s : State) : Host.Outcome State Fault Refusal :=
  .next (s.aluApply .mul rA rB)

/-- ADD: `x[rA] <- x[rA] +8 x[rB]` (R74). -/
def execAdd (rA rB : Reg) (s : State) : Host.Outcome State Fault Refusal :=
  .next (s.aluApply .add rA rB)

end Sys2Proof.Machine
end

