-- ==== Sys2Proof/Machine/Control.lean ====
section
/-! DEFINITION. The control transfers CALL, JMP and RET (44_control_transfer.md). Each meaning is the execute
stage alone; `pc` in it is the address of the instruction's own opcode byte (10_state.md R17), and PCF tells
the advance stage to leave the new `pc` alone. -/

namespace Sys2Proof.Machine

/-- The return address CALL pushes, `pc +8 2` (R81). -/
def returnAddr (s : State) : Byte := s.pc + 2#8

/-- CALL: `Push(pc +8 2) ; pc <- x[rA] ; PCF <- 1`, the target read after the push (R81; D10, log 11). -/
def execCall (rA : Reg) (s : State) : Host.Outcome State Fault Refusal :=
  let t := s.push (returnAddr s)
  .next ((t.setPc (t.reg rA)).setPcf true)

/-- JMP: `pc <- x[rA] ; PCF <- 1` (R82). -/
def execJmp (rA : Reg) (s : State) : Host.Outcome State Fault Refusal :=
  .next ((s.setPc (s.reg rA)).setPcf true)

/-- RET: `pc <- Pop() ; PCF <- 1` (R83). -/
def execRet (s : State) : Host.Outcome State Fault Refusal :=
  .next (((s.pop).2.setPc (s.pop).1).setPcf true)

end Sys2Proof.Machine
end

