-- ==== Sys2Proof/Machine/DataMovement.lean ====
section
/-! DEFINITION. Data movement: LDI and ST (41_data_movement.md). Each meaning is the execute stage alone. -/

namespace Sys2Proof.Machine

/-- LDI: `x[rA] <- opB` (R69). -/
def execLdi (rA : Reg) (imm : Byte) (s : State) : Host.Outcome State Fault Refusal :=
  .next (s.setReg rA (immediate imm))

/-- The address ST stores to: the value of register `rA` (R70). -/
def stAddr (rA : Reg) (s : State) : Byte := s.reg rA

/-- ST: `MemWrite(x[rA], 1, x[rB])` (R70). -/
def execSt (rA rB : Reg) (s : State) : Host.Outcome State Fault Refusal :=
  .next (s.writeMem (stAddr rA s) (s.reg rB))

end Sys2Proof.Machine
end

