-- ==== Sys2Proof/Machine/Stack.lean ====
section
/-! DEFINITION. The stack instructions PUSH and POP (43_stack.md R79, R80). Each meaning is the execute stage
alone. -/

namespace Sys2Proof.Machine

/-- PUSH: `v <- x[rA] ; Push(v)`, the register read before SP is decremented (R79; D10, log 11). -/
def execPush (rA : Reg) (s : State) : Host.Outcome State Fault Refusal :=
  .next (s.push (s.reg rA))

/-- POP: `v <- Pop() ; x[rA] <- v`, the register written last (R80; D10, log 11). -/
def execPop (rA : Reg) (s : State) : Host.Outcome State Fault Refusal :=
  .next ((s.pop).2.setReg rA (s.pop).1)

end Sys2Proof.Machine
end

