-- ==== Sys2Proof/Machine/System.lean ====
section
/-! DEFINITION. System and output: IRET, PRN, PRA, HLT (45_system.md), and UNDEF, the unrecognised opcode
(40_cycle_engine.md R65). Each meaning is the execute stage alone. -/

namespace Sys2Proof.Machine

/-- IRET: the return from interrupt (R85). -/
def execIret (s : State) : Host.Outcome State Fault Refusal :=
  .next s.returnFromInterrupt

/-- PRN: `Emit(Dec(x[rA]))` (R86). -/
def execPrn (rA : Reg) (s : State) : Host.Outcome State Fault Refusal :=
  .next (s.emit (.dec (s.reg rA)))

/-- PRA: `Emit(Chr(x[rA]))` (R87). -/
def execPra (rA : Reg) (s : State) : Host.Outcome State Fault Refusal :=
  .next (s.emit (.chr (s.reg rA)))

/-- HLT: `HALT <- 1`; PCF is not set, so the advance of this tick still runs (R88). -/
def execHlt (s : State) : Host.Outcome State Fault Refusal :=
  .next (s.setHalt true)

/-- UNDEF: execute does nothing; the advance by `1 + IR[7:6]` is the tick's (R65; D4, log 6). -/
def execUndef (_ir : Byte) (s : State) : Host.Outcome State Fault Refusal :=
  .next s

end Sys2Proof.Machine
end

