-- ==== Sys2Proof/Machine/Dispatch.lean ====
section
/-! DEFINITION. Stage 4 of a tick (40_cycle_engine.md R61): one handler per instruction, in the order of the
opcode table. -/

namespace Sys2Proof.Machine

/-- The execute stage: the one selected handler (40_cycle_engine.md R61, R64). -/
def exec (i : Instr) (s : State) : Host.Outcome State Fault Refusal :=
  match i with
  | .ldi rA imm => Sys2Proof.Machine.execLdi rA imm s
  | .mul rA rB => Sys2Proof.Machine.execMul rA rB s
  | .add rA rB => Sys2Proof.Machine.execAdd rA rB s
  | .push rA => Sys2Proof.Machine.execPush rA s
  | .pop rA => Sys2Proof.Machine.execPop rA s
  | .call rA => Sys2Proof.Machine.execCall rA s
  | .jmp rA => Sys2Proof.Machine.execJmp rA s
  | .ret => Sys2Proof.Machine.execRet s
  | .iret => Sys2Proof.Machine.execIret s
  | .prn rA => Sys2Proof.Machine.execPrn rA s
  | .pra rA => Sys2Proof.Machine.execPra rA s
  | .st rA rB => Sys2Proof.Machine.execSt rA rB s
  | .hlt => Sys2Proof.Machine.execHlt s
  | .undef ir => Sys2Proof.Machine.execUndef ir s

end Sys2Proof.Machine
end

