-- ==== Sys2Proof/Machine/Tick.lean ====
section
/-! DEFINITION. The tick (40_cycle_engine.md R57 to R68): fetch, the run of the fetched instruction, the
advance, the end of the tick, and the whole `Tick` event of R64 for any `Params`. Also where a test's
instruction word is placed for the next tick's fetch. -/

namespace Sys2Proof.Machine

/-- What fetch reads: the opcode byte and two bytes after it, whatever the format (R59, 30_encoding.md R47). -/
structure Fetched where
  ir : Byte
  opA : Byte
  opB : Byte
deriving DecidableEq, Repr

/-- Stage 2, fetch: the bytes at `pc`, `pc +8 1`, `pc +8 2` (R59; D1, log 2). -/
def State.fetch (s : State) : Fetched :=
  { ir := s.readMem s.pc, opA := s.readMem (s.pc + 1#8), opB := s.readMem (s.pc + 2#8) }

/-- Stage 3, decode of the fetched bytes (R60). -/
def Fetched.instr (p : Params) (f : Fetched) : Instr := decodeFetched p f.ir f.opA f.opB

/-- Stage 5, advance: `if PCF = 0 then pc <- pc +8 (1 + IR[7:6])` (R62). -/
def State.advance (s : State) (ir : Byte) : State :=
  if s.pcf then s else s.setPc (s.pc + opcodeLength ir)

/-- The end of a tick: `PCF <- 0` (R63). -/
def State.endTick (s : State) : State := s.setPcf false

/-- Stage 5 and the end of the tick, after the execute stage's outcome. -/
def finishTick (ir : Byte) : Host.Outcome State Fault Refusal → Host.Outcome State Fault Refusal
  | .next t => .next (t.advance ir).endTick
  | .fault e => .fault e
  | .refused e => .refused e

/-- Stages 2 to 5 on the state that stage 1 left. -/
def runFetched (p : Params) (s : State) : Host.Outcome State Fault Refusal :=
  finishTick s.fetch.ir (exec (s.fetch.instr p) s)

/-- The whole `Tick` event (R64). A halted machine changes nothing (R66). With `entryTickExecutes` false the
tick that enters a handler ends after stage 1, PCF cleared (R68). -/
def tickWith (p : Params) (s : State) : Host.Outcome State Fault Refusal :=
  if s.halt then .next s
  else if s.serviced.isSome && !p.entryTickExecutes then .next s.interruptCheck.endTick
  else runFetched p s.interruptCheck

/-- The tick of the machine itself. -/
def tick (s : State) : Host.Outcome State Fault Refusal := tickWith Params.default s

/-- The state made ready for the next tick to run an instruction at `pc`: the clock runs, and no interrupt is
delivered first (log 21). -/
def State.readyToFetch (s : State) : State :=
  let running := s.setHalt false
  if running.serviced.isSome then running.setIe false else running

/-- The three bytes of a table word stored at `pc`, `pc +8 1`, `pc +8 2` (log 21). -/
def State.placeWord (s : State) (nbits w : Nat) : State :=
  ((s.writeMem s.pc (tableByte nbits w 0)).writeMem (s.pc + 1#8) (tableByte nbits w 1)).writeMem
    (s.pc + 2#8) (tableByte nbits w 2)

end Sys2Proof.Machine
end

