-- ==== Sys2Proof/Machine/Step.lean ====
section
/-! DEFINITION. One step of the machine is one `Tick` (40_cycle_engine.md R64), and where the host places the
word of the next instruction. -/

namespace Sys2Proof.Machine

/-- One step: one `Tick` event (R64). It always answers a next state. -/
def step (s : State) : Host.Outcome State Fault Refusal := tick s

/-- `s` with the instruction of a table word stored where `step` fetches its next instruction: at `pc`, with
the clock running and no interrupt delivered in between (log 20, log 21). -/
def State.withFetchWord (s : State) (nbits w : Nat) : State := (s.readyToFetch).placeWord nbits w

end Sys2Proof.Machine
end

