-- ==== Sys2Proof/Machine/Pseudocode.lean ====
section
/-! DEFINITION. The spec's own machine, written down a second time and in another shape: the state tuple of
10_state.md R10 with registers and memory as total functions, and the pseudocode of 40_cycle_engine.md R64,
60_exceptions.md R95 and 43_stack.md R76, R77 line by line. It is no part of the model; a refinement claim
compares the model's tick with it. It shares with the model only the types of bytes, mnemonics and output
events and the parameters. -/

namespace Sys2Proof.Machine

/-- The tuple of R10, with `x` and `M` as functions. -/
structure Arch where
  x : Fin 8 → Byte
  pc : Byte
  IE : Bool
  PCF : Bool
  HALT : Bool
  M : Byte → Byte
  OUT : List OutEvent

/-- `x[i] <- v`. -/
def Arch.setX (m : Arch) (i : Fin 8) (v : Byte) : Arch := { m with x := Function.update m.x i v }

/-- `MemWrite(addr, 1, v)`. -/
def Arch.memWrite (m : Arch) (addr v : Byte) : Arch := { m with M := Function.update m.M addr v }

/-- `Push(v)`, the two lines of R76. -/
def Arch.push (m : Arch) (v : Byte) : Arch :=
  let m := m.setX 7 (m.x 7 - 1)
  m.memWrite (m.x 7) v

/-- `x[r] <- Pop()`, with the lines of R77. -/
def Arch.popX (m : Arch) (r : Fin 8) : Arch :=
  let v := m.M (m.x 7)
  let m := m.setX 7 (m.x 7 + 1)
  m.setX r v

/-- `pc <- Pop()`, with the lines of R77. -/
def Arch.popPc (m : Arch) : Arch :=
  let v := m.M (m.x 7)
  let m := m.setX 7 (m.x 7 + 1)
  { m with pc := v }

/-- Steps 1 to 6 of R95 for source `i`. -/
def Arch.enter (m : Arch) (i : Fin 8) : Arch :=
  let m := { m with IE := false }
  let m := m.setX 6 (m.x 6 &&& ~~~(1#8 <<< i.val))
  let m := m.push m.pc
  let m := m.push (m.x 0)
  let m := m.push (m.x 1)
  let m := m.push (m.x 2)
  let m := m.push (m.x 3)
  let m := m.push (m.x 4)
  let m := m.push (m.x 5)
  let m := m.push (m.x 6)
  let m := { m with pc := m.M (0xF8 + BitVec.ofNat 8 i.val) }
  { m with PCF := true }

/-- The loop of R95: the first pending source of the list is serviced and the loop is left. -/
def Arch.scan (m : Arch) (pending : Byte) : List (Fin 8) → Arch
  | [] => m
  | i :: rest => if pending.getLsbD i.val = true then m.enter i else m.scan pending rest

/-- `InterruptCheck()` of R95. -/
def Arch.interruptCheck (m : Arch) : Arch :=
  if m.IE = true then m.scan (m.x 6 &&& m.x 5) [0, 1, 2, 3, 4, 5, 6, 7] else m

/-- The `case` of R64, arm by arm. -/
def Arch.execute (p : Params) (m : Arch) (IR opA opB : Byte) : Arch :=
  let rA : Fin 8 := (opA.extractLsb' 0 3).toFin
  let rB : Fin 8 := (opB.extractLsb' 0 3).toFin
  if IR = p.opc .ldi then m.setX rA opB
  else if IR = p.opc .mul then m.setX rA (m.x rA * m.x rB)
  else if IR = p.opc .add then m.setX rA (m.x rA + m.x rB)
  else if IR = p.opc .push then m.push (m.x rA)
  else if IR = p.opc .pop then m.popX rA
  else if IR = p.opc .call then
    let m := m.push (m.pc + 2)
    { m with pc := m.x rA, PCF := true }
  else if IR = p.opc .jmp then { m with pc := m.x rA, PCF := true }
  else if IR = p.opc .ret then { m.popPc with PCF := true }
  else if IR = p.opc .iret then
    let m := { m with IE := true }
    let m := ((((((m.popX 6).popX 5).popX 4).popX 3).popX 2).popX 1).popX 0
    { m.popPc with PCF := true }
  else if IR = p.opc .prn then { m with OUT := m.OUT ++ [.dec (m.x rA)] }
  else if IR = p.opc .pra then { m with OUT := m.OUT ++ [.chr (m.x rA)] }
  else if IR = p.opc .st then m.memWrite (m.x rA) (m.x rB)
  else if IR = p.opc .hlt then { m with HALT := true }
  else m

/-- Stages 2 to 5 of R64. -/
def Arch.run (p : Params) (m : Arch) : Arch :=
  let IR := m.M m.pc
  let opA := m.M (m.pc + 1)
  let opB := m.M (m.pc + 2)
  let m := m.execute p IR opA opB
  let m := if m.PCF = false then { m with pc := m.pc + (1 + (IR >>> 6)) } else m
  { m with PCF := false }

/-- `Tick()` of R64. With `ENTRY_TICK_EXECUTES` false the tick that entered a handler ends after stage 1, PCF
cleared (R68). -/
def Arch.tick (p : Params) (m : Arch) : Arch :=
  if m.HALT = true then m
  else if p.entryTickExecutes = false ∧ m.IE = true ∧ m.x 6 &&& m.x 5 ≠ 0 then
    { m.interruptCheck with PCF := false }
  else m.interruptCheck.run p

/-- The tuple a state of the model stands for. -/
def State.arch (s : State) : Arch where
  x i := s.reg (Reg.ofIndex (BitVec.ofFin i))
  pc := s.pc
  IE := s.ie
  PCF := s.pcf
  HALT := s.halt
  M := s.readMem
  OUT := s.out

end Sys2Proof.Machine
end

