-- ==== Sys2Proof/Machine/Events.lean ====
section
/-! DEFINITION. The events of 00_scope.md R8, by which the machine's surroundings act on its state, and the
run of a schedule, any list of whole events (R9; D13, log 13). -/

namespace Sys2Proof.Machine

/-- The external interrupt sources (60_exceptions.md R91, R92; D8, log 9). -/
inductive ExtSource where
  | timer
  | keyboard
deriving DecidableEq, Repr

/-- The source number of an external source (R91). -/
def ExtSource.source : ExtSource → Source
  | .timer => 0
  | .keyboard => 1

/-- `INIT_MEM`, a memory image of 256 bytes (00_scope.md R4). -/
abbrev Image := Vector Byte 256

/-- The memory that holds an image (10_state.md R26). Irreducible, so that no proof runs its 256 writes. -/
@[irreducible] def Memory.ofImage (img : Image) : Memory :=
  (List.finRange 256).foldl (fun m k => Memory.write m (BitVec.ofNat 8 k.val) (img.get k)) []

/-- The events of R8. -/
inductive Event where
  /-- One instruction cycle. -/
  | tick
  /-- An external source becomes pending. -/
  | raise (src : ExtSource)
  /-- All state set to its reset value, memory to the image. -/
  | reset (img : Image)
  /-- The loader writes the memory image. -/
  | load (img : Image)
  /-- The host starts the driving clock. -/
  | start
  /-- The host stops the driving clock. -/
  | stop
deriving DecidableEq, Repr

/-- `Raise(i)`: nothing while halted, else the IS bit is set (60_exceptions.md R92). -/
def State.raise (s : State) (src : ExtSource) : State :=
  if s.halt then s else s.setPending src.source

/-- `Load`: the memory image is written, nothing else (70_reset_and_hazards.md R114). -/
def State.load (s : State) (img : Image) : State := { s with mem := Memory.ofImage img }

/-- `Reset` with the image `INIT_MEM` (70_reset_and_hazards.md R112). -/
def State.resetWith (img : Image) : State := State.reset.load img

/-- One event (R8), for any `Params`. -/
def onEvent (p : Params) (e : Event) (s : State) : Host.Outcome State Fault Refusal :=
  match e with
  | .tick => tickWith p s
  | .raise src => .next (s.raise src)
  | .reset img => .next (State.resetWith img)
  | .load img => .next (s.load img)
  | .start => .next (s.setHalt false)
  | .stop => .next (s.setHalt true)

/-- The text the surroundings see of everything emitted so far: `OUT_RENDER` applied to OUT (00_scope.md R4; D9,
log 10). No event reads it. -/
def State.outText (p : Params) (s : State) : String := p.outRender s.out

/-- A schedule: its events one after another, each whole (R9). -/
def runEvents (p : Params) : List Event → State → Host.Outcome State Fault Refusal
  | [], s => .next s
  | e :: es, s =>
    match onEvent p e s with
    | .next t => runEvents p es t
    | .fault r => .fault r
    | .refused r => .refused r

end Sys2Proof.Machine
end

