-- ==== Sys2Proof/Safety.lean ====
section
/-! DEFINITION. The terms claims are made in: a step that answers, the invariant every event keeps, a tick
that takes no interrupt, what an instruction leaves unchanged and where it stores, the stack kept clear of
the vector table, and a schedule in which the loader acts before the first tick. -/

namespace Sys2Proof.Machine

/-- The step goes on: it neither faults nor is refused (60_exceptions.md R90). -/
def Answers (o : Host.Outcome State Fault Refusal) : Prop := ∃ t, o = .next t

/-- What holds between events: the memory is in canonical form, and PCF is 0 (40_cycle_engine.md R63). -/
abbrev State.Inv (s : State) : Prop := s.mem.wf ∧ s.pcf = false

/-- The next tick runs the instruction at `pc` as an ordinary instruction: the clock runs, no source is
serviced, PCF is 0. -/
abbrev State.Ordinary (s : State) : Prop := s.halt = false ∧ s.serviced = none ∧ s.pcf = false

/-- The next tick enters the handler of source `i` (60_exceptions.md R93, R94). -/
abbrev State.Enters (s : State) (i : Source) : Prop := s.halt = false ∧ s.serviced = some i

/-- Every general register outside `rs` is unchanged. -/
def RegsKeptExcept (rs : List Reg) (s t : State) : Prop := ∀ r, r ∉ rs → t.reg r = s.reg r

/-- Every byte of memory outside `addrs` is unchanged. -/
def MemKeptExcept (addrs : List Byte) (s t : State) : Prop := ∀ a, a ∉ addrs → t.readMem a = s.readMem a

/-- IE, PCF and HALT are unchanged. -/
def FlagsKept (s t : State) : Prop := t.ie = s.ie ∧ t.pcf = s.pcf ∧ t.halt = s.halt

/-- The instructions that set PCF, the column of 30_encoding.md R49. -/
def Instr.setsPcf : Instr → Bool
  | .ldi _ _ => false
  | .mul _ _ => false
  | .add _ _ => false
  | .push _ => false
  | .pop _ => false
  | .call _ => true
  | .jmp _ => true
  | .ret => true
  | .iret => true
  | .prn _ => false
  | .pra _ => false
  | .st _ _ => false
  | .hlt => false
  | .undef _ => false

/-- What an instruction stores, address and byte, with the operations its meaning uses (20_memory.md R32). -/
def storeCells (i : Instr) (s : State) : List (Byte × Byte) :=
  match i with
  | .ldi _ _ => []
  | .mul _ _ => []
  | .add _ _ => []
  | .push rA => [(s.pushAddr, s.reg rA)]
  | .pop _ => []
  | .call _ => [(s.pushAddr, s.pc + 2#8)]
  | .jmp _ => []
  | .ret => []
  | .iret => []
  | .prn _ => []
  | .pra _ => []
  | .st rA rB => [(stAddr rA s, s.reg rB)]
  | .hlt => []
  | .undef _ => []

/-- The addresses an instruction stores to. -/
def storeAddrs (i : Instr) (s : State) : List Byte := (storeCells i s).map Prod.fst

/-- The eight addresses of the frame an interrupt entry writes, `S - 1` down to `S - 8`, where `S` is SP
before the entry (60_exceptions.md R96). -/
def frameAddrs (s : State) : List Byte :=
  let sp := s.reg .sp
  [sp - 1#8, sp - 2#8, sp - 3#8, sp - 4#8, sp - 5#8, sp - 6#8, sp - 7#8, sp - 8#8]

/-- The addresses the interrupt check of the next tick writes: the frame, if a source is serviced. -/
def entryAddrs (s : State) : List Byte :=
  match s.serviced with
  | some _ => frameAddrs s
  | none => []

/-- What the entry of source `i` stores, address and byte: the frame of R96. -/
def frameCells (s : State) (i : Source) : List (Byte × Byte) :=
  (frameAddrs s).zip [s.pc, s.reg .r0, s.reg .r1, s.reg .r2, s.reg .r3, s.reg .r4, s.reg .r5,
    s.reg .is &&& ~~~(sourceBit i)]

/-- What the interrupt check of the next tick stores: the frame, if a source is serviced. -/
def entryCells (s : State) : List (Byte × Byte) :=
  match s.serviced with
  | some i => frameCells s i
  | none => []

/-- The byte at `a` after the given stores to distinct addresses: the one stored there, if any, else the old one. -/
def byteAfter (stores : List (Byte × Byte)) (s : State) (a : Byte) : Byte := (stores.lookup a).getD (s.readMem a)

/-- The fetch of `t` sees the stores made since `s`, and reads the old bytes elsewhere (20_memory.md R43). -/
def FetchSees (stores : List (Byte × Byte)) (s t : State) : Prop :=
  t.fetch = ⟨byteAfter stores s t.pc, byteAfter stores s (t.pc + 1#8), byteAfter stores s (t.pc + 2#8)⟩

/-- The software rule of 70_reset_and_hazards.md R120 for one interrupt: the eight bytes below SP do not reach
the vector table, from below or by wrapping. -/
abbrev State.FrameClearOfTable (s : State) : Prop := 8 ≤ (s.reg .sp).toNat ∧ (s.reg .sp).toNat ≤ 0xF8

/-- No event of the schedule is a reset. -/
def noReset (es : List Event) : Prop := ∀ e ∈ es, ∀ img, e ≠ .reset img

/-- Whether the loader may act now, and whether every `load` of the schedule comes where it may: before the
first tick after a reset (00_scope.md R8, 70_reset_and_hazards.md R114). -/
def loadsAllowed : Bool → List Event → Bool
  | _, [] => true
  | _, .tick :: es => loadsAllowed false es
  | b, .raise _ :: es => loadsAllowed b es
  | _, .reset _ :: es => loadsAllowed true es
  | b, .load _ :: es => b && loadsAllowed b es
  | b, .start :: es => loadsAllowed b es
  | b, .stop :: es => loadsAllowed b es

/-- The schedules of a machine just reset that keep the loader's contract (R8, R114). -/
def loadsBeforeTicks (es : List Event) : Bool := loadsAllowed true es

end Sys2Proof.Machine
end

