-- ==== Sys2Proof/Certificates/Slice0/Obligations.lean ====
section
/-! DEFINITION. The statements for the provers, one `def Obligations.<Name> : Prop` each. Where a statement
rests on a decision of the spec (D<n> of 92_eei_decisions.md) its docstring names the decision and the row of
the assumption log. `step s` is `tickWith Params.default s` by definition, so what is stated for every `Params`
holds of the machine itself. -/

open Sys2Proof Sys2Proof.Machine

/-! ## Reset, the invariant, and that nothing stops -/

/-- Reset leaves SP 0xF4, pc 0, IE 1 (R26, the source's words); and, by the spec's decisions D6, D7, D9 (log 3,
log 4), R0 to R6, PCF, HALT zero, OUT empty and memory the image, from whatever state the event finds.
`State.reset` is the same with the zero image. -/
def Obligations.ResetValues : Prop :=
  (∀ (p : Params) (img : Image) (s : State), ∃ t, onEvent p (.reset img) s = .next t ∧
    t.reg .sp = 0xF4#8 ∧ t.pc = 0x00#8 ∧ t.ie = true ∧ (∀ r, r ≠ .sp → t.reg r = 0x00#8) ∧
    t.pcf = false ∧ t.halt = false ∧ t.out = [] ∧ ∀ k : Fin 256, t.readMem (BitVec.ofFin k) = img.get k) ∧
  State.reset.reg .sp = 0xF4#8 ∧ State.reset.pc = 0x00#8 ∧ State.reset.ie = true ∧
    (∀ r, r ≠ .sp → State.reset.reg r = 0x00#8) ∧ State.reset.pcf = false ∧ State.reset.halt = false ∧
    State.reset.out = [] ∧ ∀ a, State.reset.readMem a = 0x00#8

/-- The invariant holds after reset, whatever the memory image. -/
def Obligations.ResetMeetsInvariant : Prop :=
  State.reset.Inv ∧ ∀ img : Image, (State.resetWith img).Inv

/-- Every step keeps the canonical form of memory and leaves PCF 0 (R63; R29 for the memory). -/
def Obligations.StepKeepsInvariant : Prop :=
  ∀ s t : State, s.Inv → step s = .next t → t.Inv

/-- Every event of R8, in every order, keeps the invariant, for every opcode assignment and both readings of
D5. -/
def Obligations.EveryScheduleKeepsInvariant : Prop :=
  ∀ (p : Params) (es : List Event) (s t : State), s.Inv → runEvents p es s = .next t → t.Inv

/-- The machine never faults and the model never refuses: every step and every schedule answers a next state
(R90, R61: "there is no error exit from execute"). -/
def Obligations.NothingStops : Prop :=
  (∀ i s, Answers (exec i s)) ∧ (∀ s, Answers (step s)) ∧
  (∀ (p : Params) (es : List Event) (s : State), Answers (runEvents p es s))

/-- One step of the model is the normative pseudocode of R64, with R95's interrupt check and R76, R77, carried
out on total functions, for every opcode assignment and both values of `ENTRY_TICK_EXECUTES` (D5, log 7). -/
def Obligations.TickIsThePseudocode : Prop :=
  (∀ (p : Params) (s : State), ∃ t, tickWith p s = .next t ∧ t.arch = s.arch.tick p) ∧
  ∀ s : State, ∃ t, step s = .next t ∧ t.arch = s.arch.tick Params.default

/-! ## Encoding -/

/-- Decoding the bytes of a well-formed instruction gives it back, for every admissible opcode assignment
(R50), every operand, and whatever bytes follow. -/
def Obligations.DecodeEncodeAgree : Prop :=
  ∀ (p : Params), p.Admissible → ∀ (i : Instr), i.wellFormed p = true →
    ∀ rest : List Byte, decodeWith p (encodeWith p i ++ rest) = .ok i

/-- Whatever three bytes the fetch reads, decode gives a well-formed instruction, the byte-list decoder gives
the same one, and encoding it starts with the opcode byte fetched; so no opcode byte has two meanings. -/
def Obligations.FetchedBytesDecode : Prop :=
  ∀ (p : Params) (ir opA opB : Byte),
    (decodeFetched p ir opA opB).wellFormed p = true ∧
    decodeWith p [ir, opA, opB] = .ok (decodeFetched p ir opA opB) ∧
    (encodeWith p (decodeFetched p ir opA opB)).head? = some ir

/-- Words written out from the table of R49 (default `OPC`, D2, log 1) decode to the instruction they stand
for. -/
def Obligations.SampleWordsDecode : Prop :=
  decode [0b10011001#8, 0x00#8, 0x08#8] = .ok (.ldi .r0 0x08#8) ∧
  decode [0b10101010#8, 0x00#8, 0x01#8] = .ok (.mul .r0 .r1) ∧
  decode [0b01001101#8, 0x02#8] = .ok (.push .r2) ∧
  decode [0b01001000#8, 0x01#8] = .ok (.call .r1) ∧
  decode [0b00001011#8] = .ok .iret ∧
  decode [0b00000000#8] = .ok (.undef 0x00#8)

/-- Under every admissible opcode assignment 243 of the 256 byte values are unrecognised opcodes, and a byte
decodes to UNDEF exactly when it is one of them (R51; kept as a no-op by D4, log 6). -/
def Obligations.UnrecognisedOpcodes : Prop :=
  ∀ (p : Params), p.Admissible →
    ((List.range 256).filter fun n => p.unrecognised (BitVec.ofNat 8 n)).length = 243 ∧
    ∀ ir opA opB : Byte, decodeFetched p ir opA opB = .undef ir ↔ p.unrecognised ir = true

/-- No opcode byte with count field 3 is an instruction, under any admissible assignment (R52). -/
def Obligations.CountThreeIsUnrecognised : Prop :=
  ∀ (p : Params), p.Admissible → ∀ ir opA opB : Byte, countField ir = 3 →
    decodeFetched p ir opA opB = .undef ir

/-- The fetch reads the bytes at `pc`, `pc + 1`, `pc + 2` whatever the format, and the bytes beyond the
instruction do not matter: both for count field 0, the second for count field 1, both for an unrecognised
opcode. The first two are R47's; the last is R65's, with the spec's decision D4 (log 6). -/
def Obligations.ExtraFetchedBytesIgnored : Prop :=
  (∀ s : State, s.fetch = ⟨s.readMem s.pc, s.readMem (s.pc + 1#8), s.readMem (s.pc + 2#8)⟩) ∧
  ∀ (p : Params), p.Admissible → ∀ ir opA opB opA' opB' : Byte,
    (countField ir = 0 → decodeFetched p ir opA opB = decodeFetched p ir opA' opB') ∧
    (countField ir = 1 → decodeFetched p ir opA opB = decodeFetched p ir opA opB') ∧
    (p.unrecognised ir = true → decodeFetched p ir opA opB = decodeFetched p ir opA' opB')

/-- A register operand is selected by the low three bits of its byte, whatever bits 7:3 hold. The spec's own
decision D3 (log 5). -/
def Obligations.RegisterIndexIsLowThreeBits : Prop :=
  ∀ (m : Mnemonic) (opA opB : Byte),
    Instr.ofMnemonic m opA opB =
      Instr.ofMnemonic m (opA &&& 0x07#8) (if m = .ldi then opB else opB &&& 0x07#8) ∧
    (Reg.ofByte opA).toByte = opA &&& 0x07#8

/-! ## One step around one instruction -/

/-- An ordinary tick runs the instruction that the bytes at `pc` decode to, then advances `pc` by one plus
the operand count unless PCF was set, then clears PCF (R59, R60, R62, R63). PCF may be 1 beforehand. -/
def Obligations.StepRunsDecodedInstruction : Prop :=
  ∀ (s : State) (i : Instr), s.halt = false → s.serviced = none →
    decode [s.readMem s.pc, s.readMem (s.pc + 1#8), s.readMem (s.pc + 2#8)] = .ok i →
    ∃ u, exec i s = .next u ∧
      step s = .next { u with
        pc := if u.pcf then u.pc else u.pc + (1#8 + (countField (s.readMem s.pc)).setWidth 8)
        pcf := false }

/-- A tick that takes an interrupt goes on to run the instruction at the handler address, with the advance
suppressed. The spec's own decision D5 (R68, log 7). -/
def Obligations.EntryStepRunsHandlerInstruction : Prop :=
  ∀ (s : State) (src : Source) (i : Instr), s.Enters src →
    decode [(s.takeInterrupt src).readMem (s.takeInterrupt src).pc,
      (s.takeInterrupt src).readMem ((s.takeInterrupt src).pc + 1#8),
      (s.takeInterrupt src).readMem ((s.takeInterrupt src).pc + 2#8)] = .ok i →
    ∃ u, exec i (s.takeInterrupt src) = .next u ∧ step s = .next { u with pcf := false }

/-- A word placed by `withFetchWord` is the very next instruction that runs, from every state: the decoder
reads it from the table word, and the step runs it. (The placing is the model's own convention, log 21.) -/
def Obligations.PlacedWordRuns : Prop :=
  ∀ (s : State) (nbits w : Nat), ∃ i u,
    decodeTableWord nbits w = some i ∧ exec i (s.withFetchWord nbits w) = .next u ∧
    step (s.withFetchWord nbits w) = .next { u with
      pc := if u.pcf then u.pc else u.pc + (1#8 + (countField (tableByte nbits w 0)).setWidth 8)
      pcf := false }

/-- What a tick does to `pc`. When execute runs, the advance adds one plus the operand count to `pc` unless
PCF is 1 by then; PCF is 1 exactly when the interrupt entry of this tick, the state before it, or the
instruction (CALL, JMP, RET, IRET) set it; and an instruction that does not set PCF leaves `pc` to the advance
(R62). -/
def Obligations.AdvanceUnlessPcfSet : Prop :=
  ∀ (p : Params) (s t : State), s.halt = false → (s.serviced = none ∨ p.entryTickExecutes = true) →
    tickWith p s = .next t →
    ∃ u, exec (s.interruptCheck.fetch.instr p) s.interruptCheck = .next u ∧
      u.pcf = (s.pcf || s.serviced.isSome || Instr.setsPcf (s.interruptCheck.fetch.instr p)) ∧
      t.pc = (if u.pcf then u.pc
        else u.pc + (1#8 + (countField s.interruptCheck.fetch.ir).setWidth 8)) ∧
      (Instr.setsPcf (s.interruptCheck.fetch.instr p) = false → u.pc = s.interruptCheck.pc)

/-- PCF is 0 after every tick of a running machine, whether or not the advance took place, and hence at the
start of every tick (R63). -/
def Obligations.PcfClearedByEveryTick : Prop :=
  (∀ (p : Params) (s t : State), s.halt = false → tickWith p s = .next t → t.pcf = false) ∧
  (∀ (p : Params) (es : List Event) (s t : State), s.pcf = false → runEvents p es s = .next t → t.pcf = false)

/-! ## What each instruction does when it executes, with its frame -/

/-- LDI loads the immediate, any byte, into any register, and changes nothing else (R69). -/
def Obligations.LdiLoadsImmediate : Prop :=
  ∀ (rA : Reg) (imm : Byte) (s : State), ∃ t, exec (.ldi rA imm) s = .next t ∧
    t.reg rA = imm ∧ RegsKeptExcept [rA] s t ∧ MemKeptExcept [] s t ∧ FlagsKept s t ∧
    t.pc = s.pc ∧ t.out = s.out

/-- ST stores the data register's byte at the address register's value, any address, and changes nothing
else (R70). -/
def Obligations.StStoresRegister : Prop :=
  ∀ (rA rB : Reg) (s : State), ∃ t, exec (.st rA rB) s = .next t ∧
    stAddr rA s = s.reg rA ∧ t.readMem (s.reg rA) = s.reg rB ∧ MemKeptExcept [stAddr rA s] s t ∧
    RegsKeptExcept [] s t ∧ FlagsKept s t ∧ t.pc = s.pc ∧ t.out = s.out

/-- The ALU: ADD yields the sum mod 256 and MUL the product mod 256 of the two registers, read before the
destination is written, and nothing but the destination changes (R71). -/
def Obligations.AluWritesDestinationOnly : Prop :=
  (∀ (rA rB : Reg) (s : State), ∃ t, exec (.add rA rB) s = .next t ∧
    (t.reg rA).toNat = ((s.reg rA).toNat + (s.reg rB).toNat) % 256 ∧ t.reg rA = alu .add (s.reg rA) (s.reg rB) ∧
    RegsKeptExcept [rA] s t ∧ MemKeptExcept [] s t ∧ FlagsKept s t ∧ t.pc = s.pc ∧ t.out = s.out) ∧
  ∀ (rA rB : Reg) (s : State), ∃ t, exec (.mul rA rB) s = .next t ∧
    (t.reg rA).toNat = ((s.reg rA).toNat * (s.reg rB).toNat) % 256 ∧ t.reg rA = alu .mul (s.reg rA) (s.reg rB) ∧
    RegsKeptExcept [rA] s t ∧ MemKeptExcept [] s t ∧ FlagsKept s t ∧ t.pc = s.pc ∧ t.out = s.out

/-- PUSH decrements SP mod 256 and stores the register's old value at the new SP; `PUSH R7` stores the old SP
(R76, R79; the order for R7 is the spec's decision D10, log 11). -/
def Obligations.PushStoresBelowStack : Prop :=
  ∀ (rA : Reg) (s : State), ∃ t, exec (.push rA) s = .next t ∧
    s.pushAddr = s.reg .sp - 1#8 ∧ t.reg .sp = s.reg .sp - 1#8 ∧ t.readMem (s.reg .sp - 1#8) = s.reg rA ∧
    MemKeptExcept [s.pushAddr] s t ∧ RegsKeptExcept [.sp] s t ∧ FlagsKept s t ∧ t.pc = s.pc ∧ t.out = s.out

/-- POP reads the byte at SP, increments SP mod 256, then writes the register; `POP R7` ends with the popped
byte in SP (R77, R80; the order for R7 is the spec's decision D10, log 11). Memory keeps the popped byte. -/
def Obligations.PopReadsStackTop : Prop :=
  ∀ (rA : Reg) (s : State), ∃ t, exec (.pop rA) s = .next t ∧
    t.reg rA = s.readMem (s.reg .sp) ∧ (rA ≠ .sp → t.reg .sp = s.reg .sp + 1#8) ∧
    RegsKeptExcept [rA, .sp] s t ∧ MemKeptExcept [] s t ∧ FlagsKept s t ∧ t.pc = s.pc ∧ t.out = s.out

/-- CALL pushes `pc + 2` mod 256, then jumps to the register read after the push, so that `CALL R7` jumps to
the decremented SP (R81; D1 and D10, log 2, log 11), and sets PCF. -/
def Obligations.CallPushesReturnAddress : Prop :=
  ∀ (rA : Reg) (s : State), ∃ t, exec (.call rA) s = .next t ∧
    t.reg .sp = s.reg .sp - 1#8 ∧ t.readMem (s.reg .sp - 1#8) = s.pc + 2#8 ∧
    t.pc = (if rA = .sp then s.reg .sp - 1#8 else s.reg rA) ∧ t.pcf = true ∧
    MemKeptExcept [s.pushAddr] s t ∧ s.pushAddr = s.reg .sp - 1#8 ∧ RegsKeptExcept [.sp] s t ∧
    t.ie = s.ie ∧ t.halt = s.halt ∧ t.out = s.out

/-- JMP takes `pc` from the register, sets PCF and changes nothing else (R82). -/
def Obligations.JmpLoadsPc : Prop :=
  ∀ (rA : Reg) (s : State), ∃ t, exec (.jmp rA) s = .next t ∧
    t.pc = s.reg rA ∧ t.pcf = true ∧ RegsKeptExcept [] s t ∧ MemKeptExcept [] s t ∧
    t.ie = s.ie ∧ t.halt = s.halt ∧ t.out = s.out

/-- RET takes `pc` from the stack, increments SP, sets PCF, leaves IE alone (R83). -/
def Obligations.RetPopsPc : Prop :=
  ∀ s : State, ∃ t, exec .ret s = .next t ∧
    t.pc = s.readMem (s.reg .sp) ∧ t.reg .sp = s.reg .sp + 1#8 ∧ t.pcf = true ∧
    RegsKeptExcept [.sp] s t ∧ MemKeptExcept [] s t ∧ t.ie = s.ie ∧ t.halt = s.halt ∧ t.out = s.out

/-- IRET pops R6 down to R0 and `pc` from wherever SP points, adds 8 to SP, sets IE and PCF whatever they were
(R85; IE unconditionally by D18, log 12). -/
def Obligations.IretPopsFrame : Prop :=
  ∀ s : State, ∃ t, exec .iret s = .next t ∧
    t.reg .r6 = s.readMem (s.reg .sp) ∧ t.reg .r5 = s.readMem (s.reg .sp + 1#8) ∧
    t.reg .r4 = s.readMem (s.reg .sp + 2#8) ∧ t.reg .r3 = s.readMem (s.reg .sp + 3#8) ∧
    t.reg .r2 = s.readMem (s.reg .sp + 4#8) ∧ t.reg .r1 = s.readMem (s.reg .sp + 5#8) ∧
    t.reg .r0 = s.readMem (s.reg .sp + 6#8) ∧ t.pc = s.readMem (s.reg .sp + 7#8) ∧
    t.reg .sp = s.reg .sp + 8#8 ∧ t.ie = true ∧ t.pcf = true ∧
    MemKeptExcept [] s t ∧ t.halt = s.halt ∧ t.out = s.out

/-- PRN appends one decimal event, PRA one character event, with the register's byte, and nothing else changes
(R86, R87; events by D9, the unsigned value by D16, log 10). -/
def Obligations.PrintsEmitOneEvent : Prop :=
  (∀ (rA : Reg) (s : State), ∃ t, exec (.prn rA) s = .next t ∧ t.out = s.out ++ [.dec (s.reg rA)] ∧
    RegsKeptExcept [] s t ∧ MemKeptExcept [] s t ∧ FlagsKept s t ∧ t.pc = s.pc) ∧
  ∀ (rA : Reg) (s : State), ∃ t, exec (.pra rA) s = .next t ∧ t.out = s.out ++ [.chr (s.reg rA)] ∧
    RegsKeptExcept [] s t ∧ MemKeptExcept [] s t ∧ FlagsKept s t ∧ t.pc = s.pc

/-- HLT sets HALT and nothing else; PCF is not set (R88; the bit is the spec's decision D6, log 8). -/
def Obligations.HltSetsHalt : Prop :=
  ∀ s : State, ∃ t, exec .hlt s = .next t ∧ t.halt = true ∧ RegsKeptExcept [] s t ∧ MemKeptExcept [] s t ∧
    t.ie = s.ie ∧ t.pcf = s.pcf ∧ t.pc = s.pc ∧ t.out = s.out

/-- An unrecognised opcode executes as a no-op (R65; the spec keeps this by D4, log 6). -/
def Obligations.UndefChangesNothing : Prop :=
  ∀ (ir : Byte) (s : State), exec (.undef ir) s = .next s

/-! ## Whole ticks of single instructions, under every admissible opcode assignment -/

/-- A whole ordinary tick of LDI, ST, MUL or ADD: the effect and `pc + 3` mod 256, nothing else (R69, R70, R73,
R74; the index bits by D3, the wrap by D1). -/
def Obligations.ThreeByteTicks : Prop :=
  ∀ (p : Params), p.Admissible → ∀ s : State, s.Ordinary →
    let rA := Reg.ofByte (s.readMem (s.pc + 1#8))
    let opB := s.readMem (s.pc + 2#8)
    let rB := Reg.ofByte opB
    (s.readMem s.pc = p.opc .ldi →
      tickWith p s = .next { s with regs := s.regs.set rA opB, pc := s.pc + 3#8 }) ∧
    (s.readMem s.pc = p.opc .st →
      tickWith p s = .next { s with mem := Memory.write s.mem (s.reg rA) (s.reg rB), pc := s.pc + 3#8 }) ∧
    (s.readMem s.pc = p.opc .mul →
      tickWith p s = .next { s with regs := s.regs.set rA (s.reg rA * s.reg rB), pc := s.pc + 3#8 }) ∧
    (s.readMem s.pc = p.opc .add →
      tickWith p s = .next { s with regs := s.regs.set rA (s.reg rA + s.reg rB), pc := s.pc + 3#8 })

/-- A whole ordinary tick of PUSH, POP, PRN, PRA (`pc + 2`), CALL or JMP (`pc` as loaded), nothing else changed
(R79 to R82, R86, R87; D1, D3, D10). -/
def Obligations.TwoByteTicks : Prop :=
  ∀ (p : Params), p.Admissible → ∀ s : State, s.Ordinary →
    let rA := Reg.ofByte (s.readMem (s.pc + 1#8))
    let sp := s.reg .sp
    let lowered := s.regs.set .sp (sp - 1#8)
    (s.readMem s.pc = p.opc .push → tickWith p s = .next { s with
      regs := lowered, mem := Memory.write s.mem (sp - 1#8) (s.reg rA), pc := s.pc + 2#8 }) ∧
    (s.readMem s.pc = p.opc .pop → tickWith p s = .next { s with
      regs := (s.regs.set .sp (sp + 1#8)).set rA (s.readMem sp), pc := s.pc + 2#8 }) ∧
    (s.readMem s.pc = p.opc .call → tickWith p s = .next { s with
      regs := lowered, mem := Memory.write s.mem (sp - 1#8) (s.pc + 2#8), pc := lowered.get rA }) ∧
    (s.readMem s.pc = p.opc .jmp → tickWith p s = .next { s with pc := s.reg rA }) ∧
    (s.readMem s.pc = p.opc .prn → tickWith p s = .next { s with
      out := s.out ++ [.dec (s.reg rA)], pc := s.pc + 2#8 }) ∧
    (s.readMem s.pc = p.opc .pra → tickWith p s = .next { s with
      out := s.out ++ [.chr (s.reg rA)], pc := s.pc + 2#8 })

/-- A whole ordinary tick of RET (`pc` popped), IRET (R6 down to R0 and `pc` from the eight bytes at SP, SP + 8, IE
1), HLT (`pc + 1`, HALT set) or an unrecognised opcode (`pc + 1`,
`+ 2`, `+ 3` or `+ 4` by the quarter of the opcode space it lies in), nothing else changed (R83, R85, R88, R65;
D1, D4, D6, D18). -/
def Obligations.OneByteAndUndefTicks : Prop :=
  ∀ (p : Params), p.Admissible → ∀ s : State, s.Ordinary →
    let ir := s.readMem s.pc
    (ir = p.opc .ret → tickWith p s = .next { s with
      regs := s.regs.set .sp (s.reg .sp + 1#8), pc := s.readMem (s.reg .sp) }) ∧
    (ir = p.opc .iret → tickWith p s = .next { s with
      regs := {
        r6 := s.readMem (s.reg .sp), r5 := s.readMem (s.reg .sp + 1#8), r4 := s.readMem (s.reg .sp + 2#8)
        r3 := s.readMem (s.reg .sp + 3#8), r2 := s.readMem (s.reg .sp + 4#8), r1 := s.readMem (s.reg .sp + 5#8)
        r0 := s.readMem (s.reg .sp + 6#8), r7 := s.reg .sp + 8#8 }
      pc := s.readMem (s.reg .sp + 7#8), ie := true }) ∧
    (ir = p.opc .hlt → tickWith p s = .next { s with halt := true, pc := s.pc + 1#8 }) ∧
    (p.unrecognised ir = true →
      (ir.toNat < 0x40 → tickWith p s = .next { s with pc := s.pc + 1#8 }) ∧
      (0x40 ≤ ir.toNat ∧ ir.toNat < 0x80 → tickWith p s = .next { s with pc := s.pc + 2#8 }) ∧
      (0x80 ≤ ir.toNat ∧ ir.toNat < 0xC0 → tickWith p s = .next { s with pc := s.pc + 3#8 }) ∧
      (0xC0 ≤ ir.toNat → tickWith p s = .next { s with pc := s.pc + 4#8 }))

/-! ## Stack and subroutines -/

/-- `PUSH Rn` then `POP Rm`, for n and m other than 7, yields `R[m] = R[n]` and SP as it was, every other
register unchanged (S3 of 95_test_vectors.md; R79, R80). -/
def Obligations.PushPopRoundTrip : Prop :=
  ∀ (n m : Reg) (s : State), n ≠ .sp → m ≠ .sp →
    ∃ t u, exec (.push n) s = .next t ∧ exec (.pop m) t = .next u ∧
      u.reg m = s.reg n ∧ u.reg .sp = s.reg .sp ∧ RegsKeptExcept [m] s u ∧
      MemKeptExcept [s.reg .sp - 1#8] s u ∧ FlagsKept s u ∧ u.pc = s.pc ∧ u.out = s.out

/-- A subroutine that leaves SP and the byte at SP as the CALL left them returns with RET to the byte after the
CALL, and SP is restored (S4 of 95_test_vectors.md; R81, R83). -/
def Obligations.CallRetRoundTrip : Prop :=
  ∀ (rA : Reg) (s t c : State), exec (.call rA) s = .next t →
    c.reg .sp = t.reg .sp → c.readMem (c.reg .sp) = t.readMem (t.reg .sp) →
    ∃ u, exec .ret c = .next u ∧ u.pc = s.pc + 2#8 ∧ u.reg .sp = s.reg .sp ∧
      RegsKeptExcept [.sp] c u ∧ MemKeptExcept [] c u

/-! ## Interrupts -/

/-- The source serviced is the lowest-numbered one that is pending in IS and unmasked in IM, and only if IE is
1; IS and IM are read together at the start of the check, and with none the check changes nothing (R93; the
scan order of R94, which for sources 2 to 7 is the spec's own inference, log 16). -/
def Obligations.ServicedSourceIsLowestPending : Prop :=
  (∀ (s : State) (i : Source), s.serviced = some i ↔
    s.ie = true ∧ (s.reg .is).getLsbD i.val = true ∧ (s.reg .im).getLsbD i.val = true ∧
    ∀ j : Source, j < i → ¬ ((s.reg .is).getLsbD j.val = true ∧ (s.reg .im).getLsbD j.val = true)) ∧
  ∀ s : State, s.serviced = none ↔
    s.interruptCheck = s ∧ (s.ie = false ∨ s.reg .is &&& s.reg .im = 0#8)

/-- The entry sequence of R95: IE cleared, the serviced IS bit cleared, the frame written with pc, R0 to R5
and the cleared R6 at `S - 1` down to `S - 8` mod 256, SP lowered by 8, `pc` the byte of the vector table at
`0xF8 + i` as memory stands after the pushes, PCF set, and nothing else; with no source nothing. -/
def Obligations.InterruptEntry : Prop :=
  (∀ (s : State) (i : Source), s.serviced = some i →
    let t := s.interruptCheck
    let sp := s.reg .sp
    t.ie = false ∧ t.reg .is = s.reg .is &&& ~~~(1#8 <<< i.val) ∧ t.reg .sp = sp - 8#8 ∧
    RegsKeptExcept [.is, .sp] s t ∧
    t.readMem (sp - 1#8) = s.pc ∧ t.readMem (sp - 2#8) = s.reg .r0 ∧ t.readMem (sp - 3#8) = s.reg .r1 ∧
    t.readMem (sp - 4#8) = s.reg .r2 ∧ t.readMem (sp - 5#8) = s.reg .r3 ∧ t.readMem (sp - 6#8) = s.reg .r4 ∧
    t.readMem (sp - 7#8) = s.reg .r5 ∧ t.readMem (sp - 8#8) = s.reg .is &&& ~~~(1#8 <<< i.val) ∧
    MemKeptExcept (frameAddrs s) s t ∧ t.pc = t.readMem (0xF8#8 + BitVec.ofNat 8 i.val) ∧ t.pcf = true ∧
    t.halt = s.halt ∧ t.out = s.out) ∧
  ∀ s : State, (s.ie = false ∨ s.reg .is &&& s.reg .im = 0#8) → s.interruptCheck = s

/-- With SP between 8 and 0xF8 the frame misses the vector table: every entry keeps its byte and the handler
address is the one the table held before the interrupt (R97, R120; both derived by the spec). -/
def Obligations.EntryLeavesVectorTable : Prop :=
  ∀ (s : State) (i : Source), s.serviced = some i → s.FrameClearOfTable →
    (∀ j : Source, s.interruptCheck.readMem (vectorAddr j) = s.readMem (vectorAddr j)) ∧
    s.interruptCheck.pc = s.readMem (vectorAddr i)

/-- IRET undoes an entry: in any state with the SP the entry left and the frame bytes as the entry wrote them,
it restores R0 to R5, R7 and `pc`, restores R6 with the serviced bit cleared, and sets IE (R85, R100; C1 of
90_conflicts.md, log 19). -/
def Obligations.IretUndoesEntry : Prop :=
  ∀ (s u : State) (i : Source), s.serviced = some i →
    u.reg .sp = s.interruptCheck.reg .sp →
    (∀ a ∈ frameAddrs s, u.readMem a = s.interruptCheck.readMem a) →
    ∃ t, exec .iret u = .next t ∧ t.pc = s.pc ∧ t.ie = s.ie ∧ RegsKeptExcept [.is] s t ∧
      t.reg .is = s.reg .is &&& ~~~(1#8 <<< i.val) ∧ MemKeptExcept [] u t ∧ t.halt = u.halt ∧ t.out = u.out

/-- IE is read by the interrupt check and written in exactly two places: entry clears it, IRET sets it. No
other instruction writes it, none reads it, no event but a reset (to 1) touches it (R19). The two
clauses on ticks split on the spec's decision D5 (R68, log 7), the one on events is about those of D8 and D19
(log 9, log 15). -/
def Obligations.IeWrittenOnlyByEntryAndIret : Prop :=
  (∀ (i : Instr) (s t : State), exec i s = .next t → t.ie = if i = .iret then true else s.ie) ∧
  (∀ s : State, s.interruptCheck.ie = if s.serviced.isSome then false else s.ie) ∧
  (∀ s : State, s.ie = false → s.interruptCheck = s) ∧
  (∀ (i : Instr) (s t : State) (b : Bool), exec i s = .next t →
    exec i (s.setIe b) = .next (t.setIe (if i = .iret then true else b))) ∧
  (∀ (p : Params) (s t : State), s.halt = false → (s.serviced = none ∨ p.entryTickExecutes = true) →
    tickWith p s = .next t →
    t.ie = if s.interruptCheck.fetch.instr p = .iret then true else s.interruptCheck.ie) ∧
  (∀ (p : Params) (s t : State), s.halt = false → s.serviced.isSome = true → p.entryTickExecutes = false →
    tickWith p s = .next t → t.ie = false) ∧
  (∀ (p : Params) (e : Event) (s t : State), e ≠ .tick → onEvent p e s = .next t →
    t.ie = s.ie ∨ ((∃ img, e = .reset img) ∧ t.ie = true))

/-- No nesting: from a state with IE 0, a schedule without resets that ends with IE 1 has executed an IRET in
a tick that began with IE 0 (R101). -/
def Obligations.OnlyIretReenables : Prop :=
  ∀ (p : Params) (es : List Event) (s t : State), s.ie = false → noReset es →
    runEvents p es s = .next t → t.ie = true →
    ∃ es₁ es₂ u, es = es₁ ++ .tick :: es₂ ∧ runEvents p es₁ s = .next u ∧
      u.ie = false ∧ u.halt = false ∧ u.fetch.instr p = .iret

/-- A raise sets one bit of IS and nothing else, a second raise adds nothing, and while halted it has no effect
(R92; the keyboard's form by D8, the halted case by D6, log 8, log 9). -/
def Obligations.RaiseSetsPendingBit : Prop :=
  ∀ (p : Params) (src : ExtSource) (s : State), ∃ t, onEvent p (.raise src) s = .next t ∧
    (s.halt = true → t = s) ∧
    (s.halt = false →
      (∀ j : Source, (t.reg .is).getLsbD j.val = ((s.reg .is).getLsbD j.val || decide (j = src.source))) ∧
      RegsKeptExcept [.is] s t ∧ t.mem = s.mem ∧ FlagsKept s t ∧ t.pc = s.pc ∧ t.out = s.out) ∧
    onEvent p (.raise src) t = .next t

/-- A raise just before a handler's IRET is lost: the IRET leaves the same state as without it (R102). -/
def Obligations.RaiseBeforeIretIsLost : Prop :=
  ∀ (src : ExtSource) (s : State), ∃ t, exec .iret s = .next t ∧ exec .iret (s.raise src) = .next t

/-- A bit that LDI writes into R6 is delivered like a raised one: after an ordinary tick of `LDI R6, v` with IE
1, the next tick services the lowest bit that `v` has in common with IM (R104). -/
def Obligations.SoftwareRaisesInterrupt : Prop :=
  ∀ (p : Params) (s t : State) (v : Byte), s.Ordinary → s.ie = true → s.fetch.instr p = .ldi .r6 v →
    tickWith p s = .next t →
    t.ie = true ∧ t.serviced = lowestSet (v &&& s.reg .im) ∧ t.pc = s.pc + opcodeLength s.fetch.ir

/-- The first instruction of a handler runs twice: after the entry tick of an instruction that does not set PCF,
`pc` is still the handler address and no interrupt can be delivered. If that instruction stored over none of its own
three bytes, the next fetch reads the same bytes, hence the same instruction; and unless it halted the machine, the
next tick runs what that fetch reads (R68, R117; the spec's decision D5, log 7). -/
def Obligations.FirstHandlerInstructionRunsAgain : Prop :=
  ∀ (p : Params) (s t : State) (src : Source), p.entryTickExecutes = true → s.Enters src →
    let u := s.takeInterrupt src
    Instr.setsPcf (u.fetch.instr p) = false → tickWith p s = .next t →
    t.pc = u.pc ∧ t.serviced = none ∧
    ((∀ a ∈ [u.pc, u.pc + 1#8, u.pc + 2#8], a ∉ storeAddrs (u.fetch.instr p) u) →
      t.fetch = u.fetch ∧ t.fetch.instr p = u.fetch.instr p ∧
      (u.fetch.instr p ≠ .hlt → tickWith p t = finishTick u.fetch.ir (exec (u.fetch.instr p) t))) ∧
    (u.fetch.instr p ≠ .hlt →
      t.halt = false ∧ tickWith p t = finishTick t.fetch.ir (exec (t.fetch.instr p) t))

/-- The two readings of D5 (log 7) agree after two ticks when the handler begins with LDI or an unrecognised
byte, instructions whose double execution is harmless (R117). -/
def Obligations.EntryReadingsAgree : Prop :=
  ∀ (p : Params) (s : State) (src : Source), s.Enters src →
    ((∃ r v, (s.takeInterrupt src).fetch.instr p = .ldi r v) ∨
      (∃ ir, (s.takeInterrupt src).fetch.instr p = .undef ir)) →
    runEvents { p with entryTickExecutes := true } [.tick, .tick] s =
      runEvents { p with entryTickExecutes := false } [.tick, .tick] s

/-! ## Halting, memory, output -/

/-- While HALT is 1 ticks, raises and stops, in any number and order, change nothing (R66, R67, R92, R110; the
bit is the spec's decision D6, log 8). -/
def Obligations.HaltedMachineChangesNothing : Prop :=
  ∀ (p : Params) (es : List Event) (s : State), s.halt = true →
    (∀ e ∈ es, e = .tick ∨ e = .stop ∨ ∃ src, e = .raise src) → runEvents p es s = .next s

/-- A running machine is halted by nothing but HLT or `Stop`, and started by nothing but `Start` or `Reset`; the
two hooks change HALT alone (R110, R115; decisions D6, D19, log 8, log 15). -/
def Obligations.OnlyHltAndStopHalt : Prop :=
  (∀ (p : Params) (s t : State), s.halt = false → tickWith p s = .next t → t.halt = true →
    s.interruptCheck.fetch.instr p = .hlt) ∧
  (∀ (p : Params) (e : Event) (s t : State), onEvent p e s = .next t →
    (s.halt = false → t.halt = true → e = .tick ∨ e = .stop) ∧
    (s.halt = true → t.halt = false → e = .start ∨ ∃ img, e = .reset img)) ∧
  (∀ (p : Params) (s : State), onEvent p .start s = .next { s with halt := false } ∧
    onEvent p .stop s = .next { s with halt := true })

/-- Every byte of memory keeps its value through a tick, but for the frame of an entry and the bytes the
instruction stores to (R31, R32, R40). -/
def Obligations.TickStoresOnlyWhereSaid : Prop :=
  (∀ (i : Instr) (s t : State), exec i s = .next t → MemKeptExcept (storeAddrs i s) s t) ∧
  ∀ (p : Params) (s t : State), tickWith p s = .next t →
    MemKeptExcept (entryAddrs s ++ storeAddrs (s.interruptCheck.fetch.instr p) s.interruptCheck) s t

/-- A store is seen by the very next fetch: the pushes of an entry by the fetch of the same tick, and the store of an
instruction (ST, PUSH, CALL, in an ordinary or an entry tick) by the fetch of the next; every byte not stored to is
fetched as it was. An ordinary ST, already fetched, has its whole effect wherever it stores (R43, R70, R122; that an
entry tick executes is the spec's decision D5, log 7). -/
def Obligations.StoreSeenByNextFetch : Prop :=
  (∀ s : State, FetchSees (entryCells s) s s.interruptCheck) ∧
  (∀ (p : Params) (s t : State), s.halt = false → (s.serviced = none ∨ p.entryTickExecutes = true) →
    tickWith p s = .next t →
    FetchSees (storeCells (s.interruptCheck.fetch.instr p) s.interruptCheck) s.interruptCheck t) ∧
  ∀ (p : Params) (s t : State) (rA rB : Reg), s.Ordinary → s.fetch.instr p = .st rA rB →
    tickWith p s = .next t →
    t.pc = s.pc + opcodeLength s.fetch.ir ∧ t.readMem (s.reg rA) = s.reg rB ∧
    FetchSees [(s.reg rA, s.reg rB)] s t

/-- A tick appends at most one event to OUT and removes none; it appends one exactly when the instruction it runs
is PRN or PRA (R24, R86, R87; the stream is the spec's decision D9, log 10). -/
def Obligations.OutputOnlyGrows : Prop :=
  ∀ (p : Params) (s t : State), s.halt = false → (s.serviced = none ∨ p.entryTickExecutes = true) →
    tickWith p s = .next t →
    (∃ r, s.interruptCheck.fetch.instr p = .prn r ∧ t.out = s.out ++ [.dec (s.interruptCheck.reg r)]) ∨
    (∃ r, s.interruptCheck.fetch.instr p = .pra r ∧ t.out = s.out ++ [.chr (s.interruptCheck.reg r)]) ∨
    ((∀ r, s.interruptCheck.fetch.instr p ≠ .prn r ∧ s.interruptCheck.fetch.instr p ≠ .pra r) ∧ t.out = s.out)

/-- Output is one-way: nothing reads OUT. Over any schedule without resets, a machine that started with more
output behind it ends in the same state but for that output (R24). -/
def Obligations.OutputIsNeverRead : Prop :=
  ∀ (p : Params) (es : List Event) (s t : State) (earlier : List OutEvent), noReset es →
    runEvents p es s = .next t →
    runEvents p es { s with out := earlier ++ s.out } = .next { t with out := earlier ++ t.out }

/-- Equal memories are equal data: two memories in canonical form that read the same at every address are the
same list. -/
def Obligations.EqualMemoriesAreEqualData : Prop :=
  ∀ m n : Memory, m.wf → n.wf → (∀ a : Byte, Memory.read m a = Memory.read n a) → m = n

/-- The loader's image is what memory holds afterwards, and the loader touches nothing else (R114; the image is
a parameter by D7, log 3). -/
def Obligations.LoadWritesImage : Prop :=
  ∀ (p : Params) (img : Image) (s : State), ∃ t, onEvent p (.load img) s = .next t ∧
    (∀ k : Fin 256, t.readMem (BitVec.ofFin k) = img.get k) ∧ t.mem.wf ∧
    t.regs = s.regs ∧ t.pc = s.pc ∧ FlagsKept s t ∧ t.out = s.out

/-- `OUT_RENDER` is an argument that no event reads: a schedule runs alike under any two of them. The default one
appends to the text the decimal numeral of PRN's unsigned byte and the device's terminator, whatever that is, and
the one character with PRA's code point (R4, R86, R87; the spec's decisions D9, D16, log 10). -/
def Obligations.OutputTextIsOfEventsOnly : Prop :=
  (∀ (p : Params) (render : List OutEvent → String) (es : List Event) (s : State),
    runEvents { p with outRender := render } es s = runEvents p es s ∧
    State.outText { p with outRender := render } s = render s.out) ∧
  ∀ (s : State) (v : Byte),
    State.outText Params.default (s.emit (.dec v)) =
      State.outText Params.default s ++ (toString v.toNat ++ Config.decTerminator) ∧
    State.outText Params.default (s.emit (.chr v)) =
      State.outText Params.default s ++ String.singleton (Char.ofNat v.toNat)
end

