-- ==== Sys2Proof/Laws/Decode.lean ====
section
/-! SUPPORT. The laws of the encoding: register indices, the opcode comparison, and the default opcode assignment
meets what every assignment must (30_encoding.md R50). -/

namespace Sys2Proof

@[simp] theorem Reg.ofByte_toByte (r : Reg) : Reg.ofByte r.toByte = r := by
  cases r <;> rfl

theorem Mnemonic.mem_all (m : Mnemonic) : m ∈ Mnemonic.all := by
  cases m <;> decide

/-- A byte that the comparison finds is the opcode value of what it finds. -/
theorem opc_of_mnemonicOf {p : Params} {ir : Byte} {m : Mnemonic} (h : mnemonicOf p ir = some m) :
    p.opc m = ir := by
  simpa using List.find?_some h

/-- The comparison finds none exactly for an unrecognised opcode. -/
theorem mnemonicOf_eq_none (p : Params) (ir : Byte) : mnemonicOf p ir = none ↔ p.unrecognised ir = true := by
  simp [mnemonicOf, Params.unrecognised]

/-- Under an assignment without two equal bytes the comparison finds each mnemonic from its byte. -/
theorem mnemonicOf_opc {p : Params} (h : p.Admissible) (m : Mnemonic) : mnemonicOf p (p.opc m) = some m := by
  rcases hm : mnemonicOf p (p.opc m) with _ | n
  · have := (mnemonicOf_eq_none p _).1 hm
    simp only [Params.unrecognised, List.all_eq_true] at this
    simpa using this m m.mem_all
  · rw [h.1 n m (opc_of_mnemonicOf hm)]

/-- The mnemonic of the instruction built for it. -/
@[simp] theorem Instr.mnemonic_ofMnemonic (m : Mnemonic) (opA opB : Byte) :
    (Instr.ofMnemonic m opA opB).mnemonic = some m := by
  cases m <;> rfl

theorem Params.default_admissible : Params.default.Admissible := by
  constructor
  · intro m n
    cases m <;> cases n <;> decide
  · intro m
    cases m <;> rfl

end Sys2Proof
end

