-- ==== Sys2Proof/Laws/Memory.lean ====
section
/-! SUPPORT. The laws of the memory port (20_memory.md R29): what a read gives after a write, for any list
whatever, and that every memory operation keeps the canonical form. -/

namespace Sys2Proof.Machine

@[simp] theorem Memory.read_nil (a : Byte) : Memory.read [] a = Config.unlistedByte := rfl

theorem Memory.read_cons (c : Host.Cell) (m : Memory) (a : Byte) :
    Memory.read (c :: m) a = if c.1 = a.toNat then c.2 else Memory.read m a := rfl

theorem Memory.read_erase (m : Memory) (k : Nat) (b : Byte) :
    Memory.read (Memory.erase m k) b = if b.toNat = k then Config.unlistedByte else Memory.read m b := by
  induction m with
  | nil => simp [Memory.erase]
  | cons c m ih =>
    simp only [Memory.erase] at ih
    simp only [Memory.erase, List.filter_cons, bne_iff_ne, ne_eq]
    split <;> simp only [Memory.read_cons, ih] <;> (repeat' split) <;> first | rfl | omega

theorem Memory.read_insertCell {m : Memory} (a v b : Byte)
    (hc : ∀ c ∈ m, c.1 ≠ a.toNat) :
    Memory.read (Memory.insertCell a.toNat v m) b = if b = a then v else Memory.read m b := by
  induction m with
  | nil => simp only [Memory.insertCell, Memory.read_cons, BitVec.toNat_inj, eq_comm (a := a)]
  | cons c m ih =>
    have hca : c.1 ≠ a.toNat := hc c (by simp)
    simp only [Memory.insertCell]
    split
    · simp only [Memory.read_cons, ih fun d hd => hc d (by simp [hd])]
      by_cases hba : b = a
      · subst hba; simp [hca]
      · simp [hba]
    · simp only [Memory.read_cons, BitVec.toNat_inj, eq_comm (a := a)]

theorem Memory.ne_of_mem_erase {m : Memory} {k : Nat} {c : Host.Cell} (h : c ∈ Memory.erase m k) : c.1 ≠ k := by
  simpa using (List.mem_filter.1 h).2

/-- A write sets the addressed cell and leaves every other cell (R29). -/
theorem Memory.read_write (m : Memory) (a v b : Byte) :
    Memory.read (Memory.write m a v) b = if b = a then v else Memory.read m b := by
  unfold Memory.write
  split
  · next hv => simp only [Memory.read_erase, BitVec.toNat_inj, hv]
  · have hne : ∀ c ∈ Memory.erase m a.toNat, c.1 ≠ a.toNat := fun c => Memory.ne_of_mem_erase
    simp only [Memory.read_insertCell a v b hne, Memory.read_erase, BitVec.toNat_inj]
    split <;> rfl

theorem Memory.mem_insertCell {m : Memory} {k : Nat} {v : Byte} {d : Host.Cell}
    (h : d ∈ Memory.insertCell k v m) : d = (k, v) ∨ d ∈ m := by
  induction m with
  | nil => simpa [Memory.insertCell] using h
  | cons c m ih =>
    simp only [Memory.insertCell] at h
    split at h
    · rcases List.mem_cons.1 h with rfl | h
      · simp
      · exact (ih h).imp_right (List.mem_cons_of_mem _)
    · exact List.mem_cons.1 h

theorem Memory.insertCell_pairwise {m : Memory} {k : Nat} (v : Byte)
    (hm : m.Pairwise (fun c d => c.1 < d.1)) (hk : ∀ c ∈ m, c.1 ≠ k) :
    (Memory.insertCell k v m).Pairwise (fun c d => c.1 < d.1) := by
  induction m with
  | nil => simp [Memory.insertCell]
  | cons c m ih =>
    obtain ⟨hc, hp⟩ := List.pairwise_cons.1 hm
    simp only [Memory.insertCell]
    split
    · next hlt =>
      refine List.pairwise_cons.2 ⟨fun d hd => ?_, ih hp fun d hd => hk d (by simp [hd])⟩
      rcases Memory.mem_insertCell hd with rfl | hd
      · exact hlt
      · exact hc d hd
    · next hge =>
      have hlt : k < c.1 := by have := hk c (by simp); omega
      exact List.pairwise_cons.2
        ⟨List.forall_mem_cons.2 ⟨hlt, fun d hd => Nat.lt_trans hlt (hc d hd)⟩, hm⟩

theorem Memory.nil_wf : Memory.wf [] := ⟨List.Pairwise.nil, by simp⟩

theorem Memory.erase_wf {m : Memory} (hm : m.wf) (k : Nat) : (Memory.erase m k).wf :=
  ⟨hm.1.sublist List.filter_sublist, fun c hc => hm.2 c (List.mem_filter.1 hc).1⟩

/-- A write keeps the canonical form. -/
theorem Memory.write_wf {m : Memory} (hm : m.wf) (a v : Byte) : (Memory.write m a v).wf := by
  have he := Memory.erase_wf hm a.toNat
  unfold Memory.write
  split
  · exact he
  · next hv =>
    refine ⟨Memory.insertCell_pairwise v he.1 fun c => Memory.ne_of_mem_erase, fun c hc => ?_⟩
    rcases Memory.mem_insertCell hc with rfl | hc
    · exact ⟨a.isLt, hv⟩
    · exact he.2 c hc

theorem Memory.ofImage_wf (img : Image) : (Memory.ofImage img).wf := by
  unfold Memory.ofImage
  generalize List.finRange 256 = ks
  suffices h : ∀ m : Memory, m.wf →
      (ks.foldl (fun m k => Memory.write m (BitVec.ofNat 8 k.val) (img.get k)) m).wf from h [] Memory.nil_wf
  induction ks with
  | nil => exact fun m hm => hm
  | cons k ks ih => exact fun m hm => ih _ (Memory.write_wf hm _ _)

namespace State

variable (s : State) (a v b : Byte)

@[simp] theorem writeMem_readMem_self : (s.writeMem a v).readMem a = v := by
  simp [writeMem, readMem, Memory.read_write]

theorem writeMem_readMem : (s.writeMem a v).readMem b = if b = a then v else s.readMem b :=
  Memory.read_write s.mem a v b

theorem writeMem_readMem_of_ne {a b : Byte} (h : b ≠ a) : (s.writeMem a v).readMem b = s.readMem b := by
  rw [writeMem_readMem, if_neg h]

end State

end Sys2Proof.Machine
end

