-- ==== Sys2Proof/Laws/State.lean ====
section
/-! SUPPORT. One lemma per field per update of `State`, and reading a register after writing one, so that no
proof unfolds a record update. -/

namespace Sys2Proof.Machine

@[simp] theorem RegFile.get_set_self (f : RegFile) (r : Reg) (v : Byte) : (f.set r v).get r = v := by
  cases r <;> rfl

theorem RegFile.get_set_of_ne (f : RegFile) {r q : Reg} (v : Byte) (h : q ≠ r) :
    (f.set r v).get q = f.get q := by
  cases r <;> cases q <;> first | rfl | exact absurd rfl h

theorem RegFile.get_set (f : RegFile) (r q : Reg) (v : Byte) :
    (f.set r v).get q = if q = r then v else f.get q := by
  split
  · next h => rw [h, RegFile.get_set_self]
  · next h => exact f.get_set_of_ne v h

@[simp] theorem RegFile.set_set (f : RegFile) (r : Reg) (v w : Byte) : (f.set r v).set r w = f.set r w := by
  cases r <;> rfl

theorem RegFile.ext_get {f g : RegFile} (h : ∀ r, f.get r = g.get r) : f = g := by
  cases f; cases g
  have h0 := h .r0; have h1 := h .r1; have h2 := h .r2; have h3 := h .r3
  have h4 := h .r4; have h5 := h .r5; have h6 := h .r6; have h7 := h .r7
  simp only [RegFile.get] at h0 h1 h2 h3 h4 h5 h6 h7
  subst h0 h1 h2 h3 h4 h5 h6 h7
  rfl

/-- Two states are equal when every register, every flag, `pc`, memory and output are. -/
theorem State.ext_reg {s t : State} (hr : ∀ r, s.reg r = t.reg r) (hpc : s.pc = t.pc) (hie : s.ie = t.ie)
    (hpcf : s.pcf = t.pcf) (hh : s.halt = t.halt) (hm : s.mem = t.mem) (ho : s.out = t.out) : s = t := by
  obtain ⟨f, _, _, _, _, _, _⟩ := s
  obtain ⟨g, _, _, _, _, _, _⟩ := t
  have hfg : f = g := RegFile.ext_get hr
  simp_all

namespace State

variable (s : State) (r q : Reg) (v a : Byte) (b : Bool) (e : OutEvent)

/-! ### setReg -/
@[simp] theorem setReg_regs : (s.setReg r v).regs = s.regs.set r v := rfl
@[simp] theorem setReg_pc : (s.setReg r v).pc = s.pc := rfl
@[simp] theorem setReg_ie : (s.setReg r v).ie = s.ie := rfl
@[simp] theorem setReg_pcf : (s.setReg r v).pcf = s.pcf := rfl
@[simp] theorem setReg_halt : (s.setReg r v).halt = s.halt := rfl
@[simp] theorem setReg_mem : (s.setReg r v).mem = s.mem := rfl
@[simp] theorem setReg_out : (s.setReg r v).out = s.out := rfl
@[simp] theorem setReg_readMem : (s.setReg r v).readMem a = s.readMem a := rfl
@[simp] theorem setReg_reg_self : (s.setReg r v).reg r = v := RegFile.get_set_self _ _ _
theorem setReg_reg_of_ne {r q : Reg} (h : q ≠ r) : (s.setReg r v).reg q = s.reg q :=
  RegFile.get_set_of_ne _ _ h
theorem setReg_reg : (s.setReg r v).reg q = if q = r then v else s.reg q := RegFile.get_set _ _ _ _

/-! ### setPc -/
@[simp] theorem setPc_regs : (s.setPc v).regs = s.regs := rfl
@[simp] theorem setPc_reg : (s.setPc v).reg r = s.reg r := rfl
@[simp] theorem setPc_pc : (s.setPc v).pc = v := rfl
@[simp] theorem setPc_ie : (s.setPc v).ie = s.ie := rfl
@[simp] theorem setPc_pcf : (s.setPc v).pcf = s.pcf := rfl
@[simp] theorem setPc_halt : (s.setPc v).halt = s.halt := rfl
@[simp] theorem setPc_mem : (s.setPc v).mem = s.mem := rfl
@[simp] theorem setPc_out : (s.setPc v).out = s.out := rfl
@[simp] theorem setPc_readMem : (s.setPc v).readMem a = s.readMem a := rfl

/-! ### setIe -/
@[simp] theorem setIe_regs : (s.setIe b).regs = s.regs := rfl
@[simp] theorem setIe_reg : (s.setIe b).reg r = s.reg r := rfl
@[simp] theorem setIe_pc : (s.setIe b).pc = s.pc := rfl
@[simp] theorem setIe_ie : (s.setIe b).ie = b := rfl
@[simp] theorem setIe_pcf : (s.setIe b).pcf = s.pcf := rfl
@[simp] theorem setIe_halt : (s.setIe b).halt = s.halt := rfl
@[simp] theorem setIe_mem : (s.setIe b).mem = s.mem := rfl
@[simp] theorem setIe_out : (s.setIe b).out = s.out := rfl
@[simp] theorem setIe_readMem : (s.setIe b).readMem a = s.readMem a := rfl

/-! ### setPcf -/
@[simp] theorem setPcf_regs : (s.setPcf b).regs = s.regs := rfl
@[simp] theorem setPcf_reg : (s.setPcf b).reg r = s.reg r := rfl
@[simp] theorem setPcf_pc : (s.setPcf b).pc = s.pc := rfl
@[simp] theorem setPcf_ie : (s.setPcf b).ie = s.ie := rfl
@[simp] theorem setPcf_pcf : (s.setPcf b).pcf = b := rfl
@[simp] theorem setPcf_halt : (s.setPcf b).halt = s.halt := rfl
@[simp] theorem setPcf_mem : (s.setPcf b).mem = s.mem := rfl
@[simp] theorem setPcf_out : (s.setPcf b).out = s.out := rfl
@[simp] theorem setPcf_readMem : (s.setPcf b).readMem a = s.readMem a := rfl

/-! ### setHalt -/
@[simp] theorem setHalt_regs : (s.setHalt b).regs = s.regs := rfl
@[simp] theorem setHalt_reg : (s.setHalt b).reg r = s.reg r := rfl
@[simp] theorem setHalt_pc : (s.setHalt b).pc = s.pc := rfl
@[simp] theorem setHalt_ie : (s.setHalt b).ie = s.ie := rfl
@[simp] theorem setHalt_pcf : (s.setHalt b).pcf = s.pcf := rfl
@[simp] theorem setHalt_halt : (s.setHalt b).halt = b := rfl
@[simp] theorem setHalt_mem : (s.setHalt b).mem = s.mem := rfl
@[simp] theorem setHalt_out : (s.setHalt b).out = s.out := rfl
@[simp] theorem setHalt_readMem : (s.setHalt b).readMem a = s.readMem a := rfl

/-! ### writeMem -/
@[simp] theorem writeMem_regs : (s.writeMem a v).regs = s.regs := rfl
@[simp] theorem writeMem_reg : (s.writeMem a v).reg r = s.reg r := rfl
@[simp] theorem writeMem_pc : (s.writeMem a v).pc = s.pc := rfl
@[simp] theorem writeMem_ie : (s.writeMem a v).ie = s.ie := rfl
@[simp] theorem writeMem_pcf : (s.writeMem a v).pcf = s.pcf := rfl
@[simp] theorem writeMem_halt : (s.writeMem a v).halt = s.halt := rfl
@[simp] theorem writeMem_mem : (s.writeMem a v).mem = Memory.write s.mem a v := rfl
@[simp] theorem writeMem_out : (s.writeMem a v).out = s.out := rfl

/-! ### emit -/
@[simp] theorem emit_regs : (s.emit e).regs = s.regs := rfl
@[simp] theorem emit_reg : (s.emit e).reg r = s.reg r := rfl
@[simp] theorem emit_pc : (s.emit e).pc = s.pc := rfl
@[simp] theorem emit_ie : (s.emit e).ie = s.ie := rfl
@[simp] theorem emit_pcf : (s.emit e).pcf = s.pcf := rfl
@[simp] theorem emit_halt : (s.emit e).halt = s.halt := rfl
@[simp] theorem emit_mem : (s.emit e).mem = s.mem := rfl
@[simp] theorem emit_out : (s.emit e).out = s.out ++ [e] := rfl
@[simp] theorem emit_readMem : (s.emit e).readMem a = s.readMem a := rfl

/-! ### load -/
variable (img : Image)
@[simp] theorem load_regs : (s.load img).regs = s.regs := rfl
@[simp] theorem load_reg : (s.load img).reg r = s.reg r := rfl
@[simp] theorem load_pc : (s.load img).pc = s.pc := rfl
@[simp] theorem load_ie : (s.load img).ie = s.ie := rfl
@[simp] theorem load_pcf : (s.load img).pcf = s.pcf := rfl
@[simp] theorem load_halt : (s.load img).halt = s.halt := rfl
@[simp] theorem load_mem : (s.load img).mem = Memory.ofImage img := rfl
@[simp] theorem load_out : (s.load img).out = s.out := rfl

end State

end Sys2Proof.Machine
end

