-- ==== Sys2Proof/Laws/Ops.lean ====
section
/-! SUPPORT. For each shared operation what it does to every field, said once: the Stack Unit (43_stack.md R76,
R77), the pops of IRET, the entry of an interrupt (60_exceptions.md R95, R96), the interrupt check, and the scan
for the lowest pending source (R94). -/

namespace Sys2Proof.Machine

namespace State

variable (s : State) (r q : Reg) (v a b : Byte) (i : Source)

/-! ### push -/
@[simp] theorem push_pc : (s.push v).pc = s.pc := rfl
@[simp] theorem push_ie : (s.push v).ie = s.ie := rfl
@[simp] theorem push_pcf : (s.push v).pcf = s.pcf := rfl
@[simp] theorem push_halt : (s.push v).halt = s.halt := rfl
@[simp] theorem push_out : (s.push v).out = s.out := rfl
theorem push_regs : (s.push v).regs = s.regs.set .sp (s.reg .sp - 1#8) := rfl
theorem push_mem : (s.push v).mem = Memory.write s.mem (s.reg .sp - 1#8) v := rfl
theorem push_reg : (s.push v).reg r = if r = .sp then s.reg .sp - 1#8 else s.reg r :=
  setReg_reg s .sp r (s.reg .sp - 1#8)
@[simp] theorem push_reg_sp : (s.push v).reg .sp = s.reg .sp - 1#8 := by simp [push_reg]
theorem push_reg_of_ne {r : Reg} (h : r ≠ .sp) : (s.push v).reg r = s.reg r := by rw [push_reg, if_neg h]
theorem push_readMem : (s.push v).readMem b = if b = s.reg .sp - 1#8 then v else s.readMem b :=
  Memory.read_write s.mem (s.reg .sp - 1#8) v b

/-! ### pop -/
@[simp] theorem pop_fst : (s.pop).1 = s.readMem (s.reg .sp) := rfl
@[simp] theorem pop_snd : (s.pop).2 = s.setReg .sp (s.reg .sp + 1#8) := rfl

/-- One pop of IRET, for a register other than SP: the register gets the byte at SP, SP goes up by one, nothing
else changes. -/
theorem popRegs_cons (rs : List Reg) : s.popRegs (r :: rs) =
    ((s.setReg .sp (s.reg .sp + 1#8)).setReg r (s.readMem (s.reg .sp))).popRegs rs := rfl
theorem popRegs_nil : s.popRegs [] = s := rfl

/-! ### pushRegs: everything but registers and memory is kept -/
theorem pushRegs_cons (rs : List Reg) : s.pushRegs (r :: rs) = (s.push (s.reg r)).pushRegs rs := rfl
theorem pushRegs_nil : s.pushRegs [] = s := rfl
@[simp] theorem pushRegs_pc (rs : List Reg) : (s.pushRegs rs).pc = s.pc := by
  induction rs generalizing s with
  | nil => rfl
  | cons r rs ih => rw [pushRegs_cons, ih, push_pc]
@[simp] theorem pushRegs_ie (rs : List Reg) : (s.pushRegs rs).ie = s.ie := by
  induction rs generalizing s with
  | nil => rfl
  | cons r rs ih => rw [pushRegs_cons, ih, push_ie]
@[simp] theorem pushRegs_halt (rs : List Reg) : (s.pushRegs rs).halt = s.halt := by
  induction rs generalizing s with
  | nil => rfl
  | cons r rs ih => rw [pushRegs_cons, ih, push_halt]
@[simp] theorem pushRegs_out (rs : List Reg) : (s.pushRegs rs).out = s.out := by
  induction rs generalizing s with
  | nil => rfl
  | cons r rs ih => rw [pushRegs_cons, ih, push_out]

/-- Pushes keep the canonical form of memory. -/
theorem push_wf (h : s.mem.wf) : (s.push v).mem.wf := Memory.write_wf h _ _
theorem pushRegs_wf (rs : List Reg) (h : s.mem.wf) : (s.pushRegs rs).mem.wf := by
  induction rs generalizing s with
  | nil => exact h
  | cons r rs ih => exact ih _ (push_wf s _ h)

/-! ### clearPending and setPending -/
@[simp] theorem clearPending_pc : (s.clearPending i).pc = s.pc := rfl
@[simp] theorem clearPending_ie : (s.clearPending i).ie = s.ie := rfl
@[simp] theorem clearPending_halt : (s.clearPending i).halt = s.halt := rfl
@[simp] theorem clearPending_mem : (s.clearPending i).mem = s.mem := rfl
@[simp] theorem clearPending_out : (s.clearPending i).out = s.out := rfl
@[simp] theorem clearPending_readMem : (s.clearPending i).readMem a = s.readMem a := rfl
theorem clearPending_reg : (s.clearPending i).reg r =
    if r = .is then s.reg .is &&& ~~~(sourceBit i) else s.reg r := setReg_reg _ _ _ _
theorem setPending_reg : (s.setPending i).reg r =
    if r = .is then s.reg .is ||| sourceBit i else s.reg r := setReg_reg _ _ _ _

/-! ### takeInterrupt -/
@[simp] theorem takeInterrupt_ie : (s.takeInterrupt i).ie = false := by simp [takeInterrupt]
@[simp] theorem takeInterrupt_pcf : (s.takeInterrupt i).pcf = true := by simp [takeInterrupt]
@[simp] theorem takeInterrupt_halt : (s.takeInterrupt i).halt = s.halt := by simp [takeInterrupt]
@[simp] theorem takeInterrupt_out : (s.takeInterrupt i).out = s.out := by simp [takeInterrupt]
theorem takeInterrupt_pc : (s.takeInterrupt i).pc = (s.takeInterrupt i).readMem (vectorAddr i) := by
  simp [takeInterrupt]

/-- The registers after an entry: SP down by eight, the serviced bit of IS cleared, the rest kept (R97). -/
theorem takeInterrupt_reg : (s.takeInterrupt i).reg r =
    if r = .sp then s.reg .sp - 8#8 else if r = .is then s.reg .is &&& ~~~(sourceBit i) else s.reg r := by
  cases r <;> simp [takeInterrupt, pushRegs, frameRegs, push_reg, clearPending_reg]
  bv_omega

/-- Every byte of memory after an entry: the frame of R96, the rest kept. -/
theorem takeInterrupt_readMem : (s.takeInterrupt i).readMem b =
    if b = s.reg .sp - 8#8 then s.reg .is &&& ~~~(sourceBit i)
    else if b = s.reg .sp - 7#8 then s.reg .r5
    else if b = s.reg .sp - 6#8 then s.reg .r4
    else if b = s.reg .sp - 5#8 then s.reg .r3
    else if b = s.reg .sp - 4#8 then s.reg .r2
    else if b = s.reg .sp - 3#8 then s.reg .r1
    else if b = s.reg .sp - 2#8 then s.reg .r0
    else if b = s.reg .sp - 1#8 then s.pc
    else s.readMem b := by
  have sub (x y z : Byte) : x - y - z = x - (y + z) := by bv_omega
  simp [takeInterrupt, pushRegs, frameRegs, push_reg, push_readMem, clearPending_reg, sub]

/-- An entry keeps the canonical form of memory. -/
theorem takeInterrupt_wf (h : s.mem.wf) : (s.takeInterrupt i).mem.wf := by
  simp only [takeInterrupt, setPcf_mem, setPc_mem]
  exact pushRegs_wf _ _ (push_wf _ _ h)

/-! ### returnFromInterrupt -/
theorem popRegs_mem (rs : List Reg) : (s.popRegs rs).mem = s.mem := by
  induction rs generalizing s with
  | nil => rfl
  | cons r rs ih => rw [popRegs_cons, ih]; rfl
@[simp] theorem returnFromInterrupt_mem : (s.returnFromInterrupt).mem = s.mem := by
  simp [returnFromInterrupt, popRegs_mem]
@[simp] theorem returnFromInterrupt_readMem : (s.returnFromInterrupt).readMem a = s.readMem a := by
  simp [readMem]
@[simp] theorem returnFromInterrupt_ie : (s.returnFromInterrupt).ie = true := by
  simp [returnFromInterrupt, frameRegs, popRegs_cons, popRegs_nil]
@[simp] theorem returnFromInterrupt_pcf : (s.returnFromInterrupt).pcf = true := rfl
@[simp] theorem returnFromInterrupt_halt : (s.returnFromInterrupt).halt = s.halt := by
  simp [returnFromInterrupt, frameRegs, popRegs_cons, popRegs_nil]
@[simp] theorem returnFromInterrupt_out : (s.returnFromInterrupt).out = s.out := by
  simp [returnFromInterrupt, frameRegs, popRegs_cons, popRegs_nil]

/-- IRET takes `pc` from the last byte of the frame. -/
theorem returnFromInterrupt_pc : (s.returnFromInterrupt).pc = s.readMem (s.reg .sp + 7#8) := by
  have add (x y z : Byte) : x + y + z = x + (y + z) := by bv_omega
  simp [returnFromInterrupt, frameRegs, popRegs_cons, popRegs_nil, setReg_reg, add]

/-- The registers after an IRET: R6 down to R0 from the bytes at SP upward, SP up by eight (R85). -/
theorem returnFromInterrupt_reg : (s.returnFromInterrupt).reg r =
    match r with
    | .r0 => s.readMem (s.reg .sp + 6#8)
    | .r1 => s.readMem (s.reg .sp + 5#8)
    | .r2 => s.readMem (s.reg .sp + 4#8)
    | .r3 => s.readMem (s.reg .sp + 3#8)
    | .r4 => s.readMem (s.reg .sp + 2#8)
    | .r5 => s.readMem (s.reg .sp + 1#8)
    | .r6 => s.readMem (s.reg .sp)
    | .r7 => s.reg .sp + 8#8 := by
  have add (x y z : Byte) : x + y + z = x + (y + z) := by bv_omega
  cases r <;> simp [returnFromInterrupt, frameRegs, popRegs_cons, popRegs_nil, setReg_reg, add]

/-- An IRET, whole (R85). -/
theorem returnFromInterrupt_eq : s.returnFromInterrupt = { s with
    regs := {
      r0 := s.readMem (s.reg .sp + 6#8), r1 := s.readMem (s.reg .sp + 5#8), r2 := s.readMem (s.reg .sp + 4#8)
      r3 := s.readMem (s.reg .sp + 3#8), r4 := s.readMem (s.reg .sp + 2#8), r5 := s.readMem (s.reg .sp + 1#8)
      r6 := s.readMem (s.reg .sp), r7 := s.reg .sp + 8#8 }
    pc := s.readMem (s.reg .sp + 7#8), ie := true, pcf := true } := by
  refine State.ext_reg (fun r => ?_) s.returnFromInterrupt_pc s.returnFromInterrupt_ie s.returnFromInterrupt_pcf
    s.returnFromInterrupt_halt s.returnFromInterrupt_mem s.returnFromInterrupt_out
  rw [returnFromInterrupt_reg]
  cases r <;> rfl

/-! ### interruptCheck -/
theorem interruptCheck_of_none (h : s.serviced = none) : s.interruptCheck = s := by
  simp [interruptCheck, h]
theorem interruptCheck_of_some {i : Source} (h : s.serviced = some i) :
    s.interruptCheck = s.takeInterrupt i := by
  simp [interruptCheck, h]
theorem serviced_of_ie_false (h : s.ie = false) : s.serviced = none := by
  simp [serviced, h]

end State

/-- The scan finds the lowest set bit (R94). -/
theorem lowestSet_eq_some (b : Byte) (i : Source) :
    lowestSet b = some i ↔ b.getLsbD i.val = true ∧ ∀ j : Source, j < i → b.getLsbD j.val = false := by
  revert b i
  decide +kernel

/-- The scan finds none exactly for the byte 0. -/
theorem lowestSet_eq_none (b : Byte) : lowestSet b = none ↔ b = 0#8 := by
  revert b
  decide +kernel

end Sys2Proof.Machine
end

