-- ==== Sys2Proof/Laws/PerInstr.lean ====
section
/-! SUPPORT. Statements for all instructions, made per instruction: the encoding of an instruction has as many
bytes as its operand count says (30_encoding.md R44, R46), and starts with its opcode byte. -/

namespace Sys2Proof.Laws.EncodeShape

/-- The encoding of a named instruction is its opcode byte followed by as many bytes as its operand count; of an
unrecognised opcode it is the byte itself. -/
def Statement (i : Instr) : Prop :=
  ∀ p : Params,
    (∀ m, i.mnemonic = some m →
      ∃ ops : List Byte, encodeWith p i = p.opc m :: ops ∧ ops.length = m.operandCount.toNat) ∧
    ∀ ir, i = .undef ir → encodeWith p i = [ir]

/-- A named instruction meets the statement when its encoding has the shape. -/
theorem of_named {i : Instr} {m : Mnemonic} (hm : i.mnemonic = some m)
    (h : ∀ p : Params, ∃ ops : List Byte, encodeWith p i = p.opc m :: ops ∧ ops.length = m.operandCount.toNat) :
    Statement i := by
  refine fun p => ⟨fun n hn => ?_, fun ir hi => ?_⟩
  · rw [hm, Option.some.injEq] at hn
    exact hn ▸ h p
  · subst hi
    cases hm

theorem ldi (rA : Reg) (imm : Byte) : Statement (.ldi rA imm) := of_named rfl fun _ => ⟨_, rfl, rfl⟩
theorem mul (rA rB : Reg) : Statement (.mul rA rB) := of_named rfl fun _ => ⟨_, rfl, rfl⟩
theorem add (rA rB : Reg) : Statement (.add rA rB) := of_named rfl fun _ => ⟨_, rfl, rfl⟩
theorem push (rA : Reg) : Statement (.push rA) := of_named rfl fun _ => ⟨_, rfl, rfl⟩
theorem pop (rA : Reg) : Statement (.pop rA) := of_named rfl fun _ => ⟨_, rfl, rfl⟩
theorem call (rA : Reg) : Statement (.call rA) := of_named rfl fun _ => ⟨_, rfl, rfl⟩
theorem jmp (rA : Reg) : Statement (.jmp rA) := of_named rfl fun _ => ⟨_, rfl, rfl⟩
theorem ret : Statement .ret := of_named rfl fun _ => ⟨_, rfl, rfl⟩
theorem iret : Statement .iret := of_named rfl fun _ => ⟨_, rfl, rfl⟩
theorem prn (rA : Reg) : Statement (.prn rA) := of_named rfl fun _ => ⟨_, rfl, rfl⟩
theorem pra (rA : Reg) : Statement (.pra rA) := of_named rfl fun _ => ⟨_, rfl, rfl⟩
theorem st (rA rB : Reg) : Statement (.st rA rB) := of_named rfl fun _ => ⟨_, rfl, rfl⟩
theorem hlt : Statement .hlt := of_named rfl fun _ => ⟨_, rfl, rfl⟩
theorem undef (ir : Byte) : Statement (.undef ir) := fun _ =>
  ⟨fun _ h => absurd h (by simp [Instr.mnemonic]), fun _ h => by cases h; rfl⟩

end Sys2Proof.Laws.EncodeShape
end

