-- ==== Sys2Proof/Laws/Step.lean ====
section
/-! SUPPORT. What `exec` answers for each instruction, in the shared operations, and the ways a tick can go, so
that no proof unfolds `exec` or `tickWith`. -/

namespace Sys2Proof.Machine

variable (s : State) (rA rB : Reg)

@[simp] theorem exec_ldi (imm : Byte) : exec (.ldi rA imm) s = .next (s.setReg rA imm) := rfl
@[simp] theorem exec_mul : exec (.mul rA rB) s = .next (s.setReg rA (s.reg rA * s.reg rB)) := rfl
@[simp] theorem exec_add : exec (.add rA rB) s = .next (s.setReg rA (s.reg rA + s.reg rB)) := rfl
@[simp] theorem exec_push : exec (.push rA) s = .next (s.push (s.reg rA)) := rfl
@[simp] theorem exec_pop : exec (.pop rA) s =
    .next ((s.setReg .sp (s.reg .sp + 1#8)).setReg rA (s.readMem (s.reg .sp))) := rfl
@[simp] theorem exec_call : exec (.call rA) s =
    .next (((s.push (s.pc + 2#8)).setPc ((s.push (s.pc + 2#8)).reg rA)).setPcf true) := rfl
@[simp] theorem exec_jmp : exec (.jmp rA) s = .next ((s.setPc (s.reg rA)).setPcf true) := rfl
@[simp] theorem exec_ret : exec .ret s =
    .next (((s.setReg .sp (s.reg .sp + 1#8)).setPc (s.readMem (s.reg .sp))).setPcf true) := rfl
@[simp] theorem exec_iret : exec .iret s = .next s.returnFromInterrupt := rfl
@[simp] theorem exec_prn : exec (.prn rA) s = .next (s.emit (.dec (s.reg rA))) := rfl
@[simp] theorem exec_pra : exec (.pra rA) s = .next (s.emit (.chr (s.reg rA))) := rfl
@[simp] theorem exec_st : exec (.st rA rB) s = .next (s.writeMem (s.reg rA) (s.reg rB)) := rfl
@[simp] theorem exec_hlt : exec .hlt s = .next (s.setHalt true) := rfl
@[simp] theorem exec_undef (ir : Byte) : exec (.undef ir) s = .next s := rfl

/-- The state after execute, for every instruction, in the shared operations. -/
def execState (i : Instr) (s : State) : State :=
  match i with
  | .ldi rA imm => s.setReg rA imm
  | .mul rA rB => s.setReg rA (s.reg rA * s.reg rB)
  | .add rA rB => s.setReg rA (s.reg rA + s.reg rB)
  | .push rA => s.push (s.reg rA)
  | .pop rA => (s.setReg .sp (s.reg .sp + 1#8)).setReg rA (s.readMem (s.reg .sp))
  | .call rA => ((s.push (s.pc + 2#8)).setPc ((s.push (s.pc + 2#8)).reg rA)).setPcf true
  | .jmp rA => (s.setPc (s.reg rA)).setPcf true
  | .ret => ((s.setReg .sp (s.reg .sp + 1#8)).setPc (s.readMem (s.reg .sp))).setPcf true
  | .iret => s.returnFromInterrupt
  | .prn rA => s.emit (.dec (s.reg rA))
  | .pra rA => s.emit (.chr (s.reg rA))
  | .st rA rB => s.writeMem (s.reg rA) (s.reg rB)
  | .hlt => s.setHalt true
  | .undef _ => s

/-- Execute always answers, with `execState` (R61). -/
theorem exec_eq (i : Instr) : exec i s = .next (execState i s) := by
  cases i <;> rfl

/-- Every byte of memory after execute: the instruction's store, the rest kept. -/
theorem execState_readMem (i : Instr) (a : Byte) :
    (execState i s).readMem a = byteAfter (storeCells i s) s a := by
  have one (b v : Byte) : byteAfter [(b, v)] s a = if a = b then v else s.readMem a := by
    by_cases h : a = b <;> simp [byteAfter, List.lookup, h, beq_false_of_ne]
  cases i with
  | push rA => exact (State.push_readMem s _ a).trans (one _ _).symm
  | call rA => exact (State.push_readMem s _ a).trans (one _ _).symm
  | st rA rB => exact (State.writeMem_readMem s _ _ a).trans (one _ _).symm
  | iret => exact s.returnFromInterrupt_readMem a
  | _ => rfl

/-- The inversion of `exec`. -/
theorem exec_next {i : Instr} {s t : State} (h : exec i s = .next t) : t = execState i s :=
  (Host.Outcome.next.inj ((exec_eq s i).symm.trans h)).symm

@[simp] theorem finishTick_next (ir : Byte) (t : State) : finishTick ir (.next t) = .next (t.advance ir).endTick := rfl

@[simp] theorem endTick_pcf : (s.endTick).pcf = false := rfl
@[simp] theorem endTick_pc : (s.endTick).pc = s.pc := rfl
@[simp] theorem endTick_regs : (s.endTick).regs = s.regs := rfl
@[simp] theorem endTick_reg (r : Reg) : (s.endTick).reg r = s.reg r := rfl
@[simp] theorem endTick_ie : (s.endTick).ie = s.ie := rfl
@[simp] theorem endTick_halt : (s.endTick).halt = s.halt := rfl
@[simp] theorem endTick_mem : (s.endTick).mem = s.mem := rfl
@[simp] theorem endTick_readMem (a : Byte) : (s.endTick).readMem a = s.readMem a := rfl
@[simp] theorem endTick_out : (s.endTick).out = s.out := rfl

theorem advance_pc (ir : Byte) : (s.advance ir).pc = if s.pcf then s.pc else s.pc + opcodeLength ir := by
  unfold State.advance; split <;> rfl
@[simp] theorem advance_regs (ir : Byte) : (s.advance ir).regs = s.regs := by
  unfold State.advance; split <;> rfl
@[simp] theorem advance_reg (ir : Byte) (r : Reg) : (s.advance ir).reg r = s.reg r := by
  unfold State.advance; split <;> rfl
@[simp] theorem advance_ie (ir : Byte) : (s.advance ir).ie = s.ie := by
  unfold State.advance; split <;> rfl
@[simp] theorem advance_pcf (ir : Byte) : (s.advance ir).pcf = s.pcf := by
  unfold State.advance; split <;> rfl
@[simp] theorem advance_halt (ir : Byte) : (s.advance ir).halt = s.halt := by
  unfold State.advance; split <;> rfl
@[simp] theorem advance_mem (ir : Byte) : (s.advance ir).mem = s.mem := by
  unfold State.advance; split <;> rfl
@[simp] theorem advance_readMem (ir a : Byte) : (s.advance ir).readMem a = s.readMem a := by
  unfold State.advance; split <;> rfl
@[simp] theorem advance_out (ir : Byte) : (s.advance ir).out = s.out := by
  unfold State.advance; split <;> rfl

variable (p : Params)

theorem step_eq_tickWith : step s = tickWith Params.default s := rfl

theorem tickWith_of_halt {s : State} (h : s.halt = true) : tickWith p s = .next s := by
  simp [tickWith, h]

/-- Stages 2 to 5 always answer. -/
theorem runFetched_eq : runFetched p s = .next ((execState (s.fetch.instr p) s).advance s.fetch.ir).endTick := by
  rw [runFetched, exec_eq, finishTick_next]

theorem tickWith_of_none {s : State} (h : s.halt = false) (hs : s.serviced = none) :
    tickWith p s = runFetched p s := by
  simp [tickWith, h, hs, State.interruptCheck]

theorem tickWith_of_some {s : State} {i : Source} (h : s.halt = false) (hs : s.serviced = some i)
    (hp : p.entryTickExecutes = true) : tickWith p s = runFetched p (s.takeInterrupt i) := by
  simp [tickWith, h, hs, hp, State.interruptCheck]

theorem tickWith_of_entry_only {s : State} {i : Source} (h : s.halt = false) (hs : s.serviced = some i)
    (hp : p.entryTickExecutes = false) : tickWith p s = .next (s.takeInterrupt i).endTick := by
  simp [tickWith, h, hs, hp, State.interruptCheck]

/-- The ways a tick can go (R64, R66, R68): halted, entry only, or the run of the fetched instruction after the
interrupt check. -/
theorem tickWith_cases {p : Params} {s t : State} (h : tickWith p s = .next t) :
    (s.halt = true ∧ t = s) ∨
    (s.halt = false ∧ s.serviced.isSome = true ∧ p.entryTickExecutes = false ∧ t = s.interruptCheck.endTick) ∨
    (s.halt = false ∧ (s.serviced = none ∨ p.entryTickExecutes = true) ∧
      t = ((execState (s.interruptCheck.fetch.instr p) s.interruptCheck).advance
        s.interruptCheck.fetch.ir).endTick) := by
  unfold tickWith at h
  split at h
  · next hh => exact .inl ⟨hh, (Host.Outcome.next.inj h).symm⟩
  · next hh =>
    simp only [Bool.not_eq_true] at hh
    split at h
    · next hs =>
      simp only [Bool.and_eq_true, Bool.not_eq_true'] at hs
      exact .inr (.inl ⟨hh, hs.1, hs.2, (Host.Outcome.next.inj h).symm⟩)
    · next hs =>
      refine .inr (.inr ⟨hh, ?_, (Host.Outcome.next.inj ((runFetched_eq _ p).symm.trans h)).symm⟩)
      simpa [← Option.isSome_iff_ne_none, or_iff_not_imp_left] using hs

/-- One event of a schedule, then the rest. -/
theorem runEvents_cons {p : Params} {e : Event} {es : List Event} {s t : State}
    (h : runEvents p (e :: es) s = .next t) : ∃ u, onEvent p e s = .next u ∧ runEvents p es u = .next t := by
  unfold runEvents at h
  split at h
  · next u hu => exact ⟨u, hu, h⟩
  · cases h
  · cases h

/-- Under a schedule that keeps the loader's contract and has no reset, no load comes after a tick (R114). -/
theorem loadsAllowed_no_load_after {es : List Event} (h : loadsAllowed false es = true) (hr : noReset es)
    (img : Image) : Event.load img ∉ es := by
  induction es with
  | nil => simp
  | cons e es ih =>
    have hr' : noReset es := fun e he => hr e (List.mem_cons_of_mem _ he)
    cases e with
    | reset img' => exact absurd rfl (hr _ (by simp) img')
    | _ => simp_all [loadsAllowed]

end Sys2Proof.Machine
end

