-- ==== Sys2Proof/Tests/Slice0.lean ====
section
/-! SUPPORT. Tests of the model: the well-formedness checks refuse an ill-formed term each, words written out from
30_encoding.md R49 decode to what they stand for, one step on a small state against the vectors of
95_test_vectors.md (named in each comment), and for each statement with hypotheses a state that meets them. -/

namespace Sys2Proof.Tests

open Sys2Proof Sys2Proof.Machine

/-! ## Helpers -/

/-- A running state with the given registers, `pc` and listed bytes. -/
def running (regs : RegFile) (pc : Byte) (bytes : List Host.Cell) : State :=
  { regs := regs, pc := pc, ie := true, pcf := false, halt := false, mem := bytes, out := [] }

/-- The register file after reset. -/
def zeros : RegFile := RegFile.reset

/-- What `f` sees of the state an outcome goes on to. -/
def see {α : Type} (o : Host.Outcome State Fault Refusal) (f : State → α) : Option α :=
  match o with
  | .next t => some (f t)
  | .fault _ => none
  | .refused _ => none

/-! ## Well-formedness: one ill-formed term for each check -/

/-- UNDEF may not carry an opcode value (R51); a byte that is none is accepted. -/
theorem test_wellFormed_undef : (Instr.undef 0x99#8).wellFormed Params.default = false ∧
    (Instr.undef 0x00#8).wellFormed Params.default = true := by decide

/-- An assignment with two equal bytes is not admissible (R50 a). -/
theorem test_admissible_injective :
    ¬ Params.Admissible { Params.default with opc := fun m => if m = .hlt then 0x09#8 else defaultOpc m } := by
  intro h
  exact absurd (h.1 .hlt .ret rfl) (by decide)

/-- An assignment whose count field is wrong is not admissible (R50 b). -/
theorem test_admissible_count :
    ¬ Params.Admissible { Params.default with opc := fun m => if m = .hlt then 0x41#8 else defaultOpc m } := by
  intro h
  exact absurd (h.2 .hlt) (by decide)

/-- A schedule that loads after a tick breaks the loader's contract (R8); one that loads first keeps it. -/
theorem test_loadsBeforeTicks (img : Image) : loadsBeforeTicks [.tick, .load img] = false ∧
    loadsBeforeTicks [.load img, .tick, .reset img, .load img, .tick] = true := ⟨rfl, rfl⟩

/-! ## Decoding: one word per constructor, written out from R49, and the rejections by name -/

theorem test_decode_ldi : decode [0b10011001#8, 0x00#8, 0x08#8] = .ok (.ldi .r0 0x08#8) := rfl
theorem test_decode_mul : decode [0b10101010#8, 0x02#8, 0x07#8] = .ok (.mul .r2 .r7) := rfl
theorem test_decode_add : decode [0b10101000#8, 0x07#8, 0x01#8] = .ok (.add .r7 .r1) := rfl
theorem test_decode_push : decode [0b01001101#8, 0x03#8] = .ok (.push .r3) := rfl
theorem test_decode_pop : decode [0b01001100#8, 0x06#8] = .ok (.pop .r6) := rfl
theorem test_decode_call : decode [0b01001000#8, 0x01#8] = .ok (.call .r1) := rfl
theorem test_decode_jmp : decode [0b01010000#8, 0x04#8] = .ok (.jmp .r4) := rfl
theorem test_decode_ret : decode [0b00001001#8] = .ok .ret := rfl
theorem test_decode_iret : decode [0b00001011#8] = .ok .iret := rfl
theorem test_decode_prn : decode [0b01000011#8, 0x00#8] = .ok (.prn .r0) := rfl
theorem test_decode_pra : decode [0b01000010#8, 0x01#8] = .ok (.pra .r1) := rfl
theorem test_decode_st : decode [0b10011010#8, 0x02#8, 0x01#8] = .ok (.st .r2 .r1) := rfl
theorem test_decode_hlt : decode [0b00000001#8] = .ok .hlt := rfl
theorem test_decode_undef : decode [0b11000000#8] = .ok (.undef 0xC0#8) := rfl
theorem test_decode_empty : decode [] = .error .noOpcode := rfl
theorem test_decode_short_a : decode [0x4D#8] = .error (.noOperandA .push) := rfl
theorem test_decode_short_b : decode [0x99#8, 0x00#8] = .error (.noOperandB .ldi) := rfl
/-- The table's numbering: operand bytes count on from the opcode byte; bits above the row are 0. -/
theorem test_decodeTableWord : decodeTableWord 24 0x080099 = some (.ldi .r0 0x08#8) ∧
    decodeTableWord 8 0x0FFF99 = some (.ldi .r0 0x00#8) := by decide
theorem test_encode : encode (.st .r2 .r1) = [0x9A#8, 0x02#8, 0x01#8] := by decide

/-! ## One step each, from 95_test_vectors.md -/

/-- V-ENG 4: count field 3 advances by 4. -/
theorem test_undef_count3 : see (step (running zeros 0x10#8 [(0x10, 0xC0#8)])) State.pc = some 0x14#8 := by decide
/-- V-ENG 7: the advance wraps. -/
theorem test_undef_wraps : see (step (running zeros 0xFD#8 [(0xFD, 0xFF#8)])) State.pc = some 0x01#8 := by decide
/-- V-ENG 6: the operand fetch wraps. -/
theorem test_ldi_wraps : see (step (running zeros 0xFE#8 [(0x00, 0x5A#8), (0xFE, 0x99#8), (0xFF, 0x02#8)]))
    (fun t => (t.reg .r2, t.pc)) = some (0x5A#8, 0x01#8) := by decide
/-- V-LDI 5: operand byte 0x0B selects R3. -/
theorem test_ldi_index : see (step (running zeros 0x20#8 [(0x20, 0x99#8), (0x21, 0x0B#8), (0x22, 0x77#8)]))
    (fun t => (t.reg .r3, t.pc)) = some (0x77#8, 0x23#8) := by decide
/-- V-ST 6. -/
theorem test_st : see (step (running ((zeros.set .r2 0x80#8).set .r1 0x41#8) 0x18#8
    [(0x18, 0x9A#8), (0x19, 0x02#8), (0x1A, 0x01#8)]))
    (fun t => (t.readMem 0x80#8, t.pc)) = some (0x41#8, 0x1B#8) := by decide
/-- V-ST 10: the ST overwrites its own opcode with 0 and completes. -/
theorem test_st_own_byte : see (step (running (zeros.set .r0 0x18#8) 0x18#8
    [(0x18, 0x9A#8), (0x19, 0x00#8), (0x1A, 0x01#8)]))
    (fun t => (t.readMem 0x18#8, t.pc)) = some (0x00#8, 0x1B#8) := by decide
/-- V-ALU 3: 0xFF * 0xFF. -/
theorem test_mul_wraps : see (step (running ((zeros.set .r0 0xFF#8).set .r1 0xFF#8) 0#8
    [(0, 0xAA#8), (2, 0x01#8)])) (fun t => (t.reg .r0, t.reg .r1)) = some (0x01#8, 0xFF#8) := by decide
/-- V-ALU 8: the register squared. -/
theorem test_mul_square : see (step (running (zeros.set .r2 0x0C#8) 0#8
    [(0, 0xAA#8), (1, 0x02#8), (2, 0x02#8)])) (fun t => (t.reg .r2, t.pc)) = some (0x90#8, 0x03#8) := by decide
/-- V-ALU 10: 200 + 100. -/
theorem test_add_wraps : see (step (running ((zeros.set .r0 200#8).set .r1 100#8) 0#8
    [(0, 0xA8#8), (2, 0x01#8)])) (fun t => (t.reg .r0, t.reg .r1)) = some (44#8, 100#8) := by decide
/-- V-ALU 16: SP lowered by 4. -/
theorem test_add_sp : see (step (running (zeros.set .r1 0xFC#8) 0#8
    [(0, 0xA8#8), (1, 0x07#8), (2, 0x01#8)])) (fun t => t.reg .sp) = some 0xF0#8 := by decide
/-- V-STK 3: a push with SP 0 wraps. -/
theorem test_push_wraps : see (step (running ((zeros.set .r0 0x5A#8).set .sp 0x00#8) 0#8 [(0, 0x4D#8)]))
    (fun t => (t.reg .sp, t.readMem 0xFF#8)) = some (0xFF#8, 0x5A#8) := by decide
/-- V-STK 5: `PUSH R7` stores the old SP. -/
theorem test_push_sp : see (step (running zeros 0#8 [(0, 0x4D#8), (1, 0x07#8)]))
    (fun t => (t.reg .sp, t.readMem 0xF3#8)) = some (0xF3#8, 0xF4#8) := by decide
/-- V-STK 4: a pop with SP 0xFF wraps. -/
theorem test_pop_wraps : see (step (running (zeros.set .sp 0xFF#8) 0#8 [(0, 0x4C#8), (1, 0x02#8), (0xFF, 0x5A#8)]))
    (fun t => (t.reg .r2, t.reg .sp)) = some (0x5A#8, 0x00#8) := by decide
/-- V-STK 6: `POP R7` ends with the popped byte. -/
theorem test_pop_sp : see (step (running (zeros.set .sp 0xF3#8) 0#8 [(0, 0x4C#8), (1, 0x07#8), (0xF3, 0x20#8)]))
    (fun t => (t.reg .sp, t.pc)) = some (0x20#8, 0x02#8) := by decide
/-- V-CTL 3: the return address wraps. -/
theorem test_call_wraps : see (step (running (zeros.set .r0 0x40#8) 0xFF#8 [(0xFF, 0x48#8)]))
    (fun t => (t.readMem 0xF3#8, t.pc)) = some (0x01#8, 0x40#8) := by decide
/-- V-CTL 6: `CALL R7` reads the target after the push. -/
theorem test_call_sp : see (step (running zeros 0x06#8 [(0x06, 0x48#8), (0x07, 0x07#8)]))
    (fun t => (t.readMem 0xF3#8, t.reg .sp, t.pc)) = some (0x08#8, 0xF3#8, 0xF3#8) := by decide
/-- V-CTL 5. -/
theorem test_jmp : see (step (running (zeros.set .r3 0xF0#8) 0x06#8 [(0x06, 0x50#8), (0x07, 0x03#8)]))
    (fun t => (t.pc, t.reg .sp)) = some (0xF0#8, 0xF4#8) := by decide
/-- V-CTL 2. -/
theorem test_ret : see (step (running (zeros.set .sp 0xF3#8) 0x13#8 [(0x13, 0x09#8), (0xF3, 0x08#8)]))
    (fun t => (t.pc, t.reg .sp)) = some (0x08#8, 0xF4#8) := by decide
/-- V-SYS 9: IRET with no frame pops the vector table. -/
theorem test_iret_regs : see (step (running (zeros.set .sp 0xF8#8) 0x05#8 [(0x05, 0x0B#8), (0xF8, 0x10#8),
    (0xF9, 0x20#8), (0xFA, 0x30#8), (0xFB, 0x40#8), (0xFC, 0x50#8), (0xFD, 0x60#8), (0xFE, 0x70#8), (0xFF, 0x80#8)]))
    (fun t => t.regs) = some ⟨0x70#8, 0x60#8, 0x50#8, 0x40#8, 0x30#8, 0x20#8, 0x10#8, 0x00#8⟩ := by decide
/-- V-SYS 8: IRET re-enables and takes `pc` from the frame. -/
theorem test_iret_pc : see (step { running (zeros.set .sp 0xEC#8) 0x1B#8 [(0x1B, 0x0B#8), (0xED, 0x01#8),
    (0xF2, 0x06#8), (0xF3, 0x06#8)] with ie := false })
    (fun t => (t.pc, t.reg .sp, t.ie)) = some (0x06#8, 0xF4#8, true) := by decide
/-- V-SYS 2: PRN is unsigned. -/
theorem test_prn : see (step (running (zeros.set .r0 0xFF#8) 0#8 [(0, 0x43#8)]))
    (fun t => (t.out, t.pc)) = some ([.dec 255#8], 0x02#8) := by decide
/-- V-SYS 4. -/
theorem test_pra : see (step (running (zeros.set .r1 0x41#8) 0x13#8 [(0x13, 0x42#8), (0x14, 0x01#8)]))
    (fun t => (t.out, t.pc)) = some ([.chr 0x41#8], 0x15#8) := by decide
/-- V-SYS 6: the HLT tick advances. -/
theorem test_hlt : see (step (running zeros 0x0B#8 [(0x0B, 0x01#8)])) (fun t => (t.halt, t.pc)) =
    some (true, 0x0C#8) := by decide
/-- V-ENG 8: a halted tick. -/
theorem test_halted : see (step { running zeros 0x0B#8 [(0x0B, 0x01#8)] with halt := true }) State.pc =
    some 0x0B#8 := by decide

/-! ## Interrupts, from V-INT -/

/-- The state of V-INT 1. -/
def entryState : State :=
  running ⟨0x11#8, 0x22#8, 0x33#8, 0x44#8, 0x55#8, 0x01#8, 0x01#8, 0xF4#8⟩ 0x20#8
    [(0x40, 0x99#8), (0x42, 0x07#8), (0xF8, 0x40#8)]

/-- V-INT 1: the frame in memory. -/
theorem test_entry_frame : see (step entryState) State.mem = some [(0x40, 0x99#8), (0x42, 0x07#8), (0xED, 0x01#8),
    (0xEE, 0x55#8), (0xEF, 0x44#8), (0xF0, 0x33#8), (0xF1, 0x22#8), (0xF2, 0x11#8), (0xF3, 0x20#8),
    (0xF8, 0x40#8)] := by decide
/-- V-INT 1: the registers, with the handler's LDI executed in the entry tick, and `pc` not advanced. -/
theorem test_entry_regs : see (step entryState) (fun t => (t.regs, t.pc, t.ie, t.pcf)) =
    some (⟨0x07#8, 0x22#8, 0x33#8, 0x44#8, 0x55#8, 0x01#8, 0x00#8, 0xEC#8⟩, 0x40#8, false, false) := by decide
/-- V-INT 5: reserved source 7 through `M[0xFF]`. -/
theorem test_entry_source7 : see (step (running ((zeros.set .r5 0x80#8).set .r6 0x80#8) 0x20#8 [(0xFF, 0x60#8)]))
    (fun t => (t.pc, t.reg .is, t.readMem 0xED#8)) = some (0x60#8, 0x00#8, 0x80#8) := by decide
/-- V-INT 6: the lowest source of `IS & IM`. -/
theorem test_entry_lowest : (running ((zeros.set .r5 0x05#8).set .r6 0x06#8) 0x20#8 []).serviced = some 2 := by decide
/-- S6 of part S: timer before keyboard. -/
theorem test_entry_priority : (running ((zeros.set .r5 0x03#8).set .r6 0x03#8) 0x20#8 []).serviced = some 0 := by decide
/-- V-INT 10: the frame wraps over the vector table. -/
theorem test_entry_wraps : see (step (running ⟨0xA0#8, 0xA1#8, 0xA2#8, 0xA3#8, 0xA4#8, 0x01#8, 0x01#8, 0x03#8⟩ 0x20#8
    [(0xF8, 0x40#8)])) State.mem = some [(0x00, 0xA1#8), (0x01, 0xA0#8), (0x02, 0x20#8), (0xF8, 0x40#8),
    (0xFC, 0x01#8), (0xFD, 0xA4#8), (0xFE, 0xA3#8), (0xFF, 0xA2#8)] := by decide
/-- V-INT 7 and 8: a raise is one bit, and nothing while halted. -/
theorem test_raise : ((State.reset.raise .timer).raise .timer).reg .is = 0x01#8 ∧
    (((State.reset.setHalt true).raise .timer).reg .is) = 0x00#8 := by decide
/-- V-INT 3 and 4: masked, and disabled, sources are not delivered. -/
theorem test_gated : (running (zeros.set .r6 0x01#8) 0x20#8 []).serviced = none ∧
    ({ running ((zeros.set .r5 0x01#8).set .r6 0x01#8) 0x20#8 [] with ie := false } : State).serviced = none := by decide

/-! ## The ALU's undefined operation and the texts -/

/-- R72: an undefined ALU operation leaves the destination. -/
theorem test_alu_undefined : alu (.undefinedOp 0x07#8) 0x12#8 0x34#8 = 0x12#8 := rfl
/-- R86, R87: the default texts, here with no terminator. -/
theorem test_renderOut : renderOut "" [.dec 72#8, .chr 0x41#8] = "72A" := by decide
/-- R55: the assembler form. -/
theorem test_instrText : instrText (.ldi .r0 8#8) = "LDI R0, 8" := by decide

/-! ## Placing a word, and the invariant -/

theorem test_withFetchWord : see (step (State.reset.withFetchWord 24 0x080099)) (fun t => (t.reg .r0, t.pc)) =
    some (0x08#8, 0x03#8) := by decide
/-- From a halted state with a pending interrupt the placed word runs next all the same. -/
theorem test_withFetchWord_ready : see (step ({ entryState with halt := true }.withFetchWord 8 0x01))
    (fun t => (t.halt, t.pc)) = some (true, 0x21#8) := by decide
theorem test_memory_canonical : Memory.write [(3, 0x07#8)] 0x03#8 0x00#8 = [] ∧
    Memory.write [(3, 0x07#8), (9, 0x01#8)] 0x05#8 0x02#8 = [(3, 0x07#8), (5, 0x02#8), (9, 0x01#8)] := by decide

/-! ## Witnesses: for every statement with hypotheses, a state and operands that meet all of them -/

/-- An outcome that goes on to a state with a decidable property, from what `see` shows. -/
theorem next_of_see {o : Host.Outcome State Fault Refusal} {P : State → Prop} [DecidablePred P]
    (h : see o (fun t => decide (P t)) = some true) : ∃ t, o = .next t ∧ P t := by
  cases o with
  | next t => exact ⟨t, rfl, by simpa [see] using h⟩
  | fault e => cases h
  | refused e => cases h

/-- The other reading of D5. -/
def entryOnly : Params := { Params.default with entryTickExecutes := false }

/-- `entryState` with the given bytes at the handler address 0x40. -/
def entering (opcode opA opB : Byte) : State :=
  ((entryState.writeMem 0x40#8 opcode).writeMem 0x41#8 opA).writeMem 0x42#8 opB

/-- A state about to run the given bytes as an ordinary instruction, at the last address, so that the fetch and
the advance wrap, with SP 0. -/
def atTop (opcode opA opB : Byte) : State :=
  running ((zeros.set .r2 0x80#8).set .sp 0x00#8) 0xFF#8
    (Memory.write (Memory.write (Memory.write [] 0xFF#8 opcode) 0x00#8 opA) 0x01#8 opB)

theorem witness_StepKeepsInvariant : entryState.Inv ∧ ∃ t, step entryState = .next t ∧ t.mem ≠ entryState.mem :=
  ⟨by decide, next_of_see (by decide)⟩

theorem witness_EveryScheduleKeepsInvariant : State.reset.Inv ∧ ∃ t,
    runEvents entryOnly [.raise .keyboard, .tick, .stop, .tick, .start, .tick] State.reset = .next t ∧ t.pc = 2#8 :=
  ⟨by decide, next_of_see (by decide)⟩

/-- Another admissible assignment than the default one, so that the statements over every assignment are about more
than it. -/
def swapped : Params :=
  { Params.default with opc := fun m => if m = .ret then 0x3F#8 else if m = .hlt then 0x00#8 else defaultOpc m }

theorem witness_DecodeEncodeAgree : Params.default.Admissible ∧ swapped.Admissible ∧
    (Instr.ldi .r7 0xFF#8).wellFormed swapped = true ∧ (Instr.undef 0x01#8).wellFormed swapped = true ∧
    (Instr.undef 0xFF#8).wellFormed Params.default = true := by
  refine ⟨Params.default_admissible, ⟨fun m n => ?_, fun m => ?_⟩, rfl, by decide, by decide⟩
  · cases m <;> cases n <;> decide
  · cases m <;> rfl

theorem witness_UnrecognisedOpcodes : Params.default.Admissible ∧
    Params.default.unrecognised 0x00#8 = true ∧ Params.default.unrecognised 0xFF#8 = true ∧
    Params.default.unrecognised 0x01#8 = false ∧ Params.default.unrecognised 0xAA#8 = false :=
  ⟨Params.default_admissible, by decide⟩

theorem witness_CountThreeIsUnrecognised : Params.default.Admissible ∧ countField 0xC0#8 = 3 ∧
    countField 0xFF#8 = 3 ∧ countField 0xBF#8 ≠ 3 := ⟨Params.default_admissible, by decide⟩

/-- Each clause: count field 0 and recognised, count field 1 and recognised, unrecognised with count field 3. Where
two clauses meet (0x00: count field 0 and unrecognised) they say the same. -/
theorem witness_ExtraFetchedBytesIgnored : Params.default.Admissible ∧
    countField 0x09#8 = 0 ∧ countField 0x4D#8 = 1 ∧ Params.default.unrecognised 0xFF#8 = true ∧
    countField 0x00#8 = 0 ∧ Params.default.unrecognised 0x00#8 = true := ⟨Params.default_admissible, by decide⟩

/-- With PCF 0, and with PCF 1. -/
theorem witness_StepRunsDecodedInstruction :
    ((atTop 0x99#8 0x02#8 0x5A#8).halt = false ∧ (atTop 0x99#8 0x02#8 0x5A#8).serviced = none ∧
      decode [(atTop 0x99#8 0x02#8 0x5A#8).readMem 0xFF#8, (atTop 0x99#8 0x02#8 0x5A#8).readMem 0x00#8,
        (atTop 0x99#8 0x02#8 0x5A#8).readMem 0x01#8] = .ok (.ldi .r2 0x5A#8)) ∧
    (((atTop 0x50#8 0x02#8 0x00#8).setPcf true).halt = false ∧
      ((atTop 0x50#8 0x02#8 0x00#8).setPcf true).serviced = none ∧
      decode [((atTop 0x50#8 0x02#8 0x00#8).setPcf true).readMem 0xFF#8,
        ((atTop 0x50#8 0x02#8 0x00#8).setPcf true).readMem 0x00#8,
        ((atTop 0x50#8 0x02#8 0x00#8).setPcf true).readMem 0x01#8] = .ok (.jmp .r2)) :=
  ⟨⟨by decide, by decide, rfl⟩, by decide, by decide, rfl⟩

theorem witness_EntryStepRunsHandlerInstruction : entryState.Enters 0 ∧
    ((entryState.takeInterrupt 0).pc = 0x40#8) ∧
    ((entryState.takeInterrupt 0).readMem 0x40#8 = 0x99#8 ∧ (entryState.takeInterrupt 0).readMem 0x41#8 = 0x00#8 ∧
      (entryState.takeInterrupt 0).readMem 0x42#8 = 0x07#8) ∧
    decode [0x99#8, 0x00#8, 0x07#8] = .ok (.ldi .r0 0x07#8) := ⟨by decide, by decide, by decide, rfl⟩

/-- Nothing serviced and PCF not set (ST), nothing serviced and PCF set (JMP), and an entry tick that executes. -/
theorem witness_AdvanceUnlessPcfSet :
    ((atTop 0x9A#8 0x02#8 0x01#8).halt = false ∧ (atTop 0x9A#8 0x02#8 0x01#8).serviced = none ∧
      ∃ t, tickWith entryOnly (atTop 0x9A#8 0x02#8 0x01#8) = .next t ∧ t.pc = 0x02#8) ∧
    ((atTop 0x50#8 0x02#8 0x00#8).halt = false ∧ (atTop 0x50#8 0x02#8 0x00#8).serviced = none ∧
      ∃ t, tickWith Params.default (atTop 0x50#8 0x02#8 0x00#8) = .next t ∧ t.pc = 0x80#8) ∧
    (entryState.halt = false ∧ Params.default.entryTickExecutes = true ∧
      ∃ t, tickWith Params.default entryState = .next t ∧ t.pc = 0x40#8) :=
  ⟨⟨by decide, by decide, next_of_see (by decide)⟩, ⟨by decide, by decide, next_of_see (by decide)⟩,
    by decide, rfl, next_of_see (by decide)⟩

/-- With and without a CALL (which sets PCF), and with an entry that ends the tick. -/
theorem witness_PcfClearedByEveryTick :
    ((atTop 0x48#8 0x02#8 0x00#8).halt = false ∧
      ∃ t, tickWith Params.default (atTop 0x48#8 0x02#8 0x00#8) = .next t ∧ t.pc = 0x80#8) ∧
    (entryState.halt = false ∧ ∃ t, tickWith entryOnly entryState = .next t ∧ t.pc = 0x40#8) ∧
    (entryState.pcf = false ∧ ∃ t,
      runEvents Params.default [.tick, .tick] entryState = .next t ∧ t.pc = 0x43#8) :=
  ⟨⟨by decide, next_of_see (by decide)⟩, ⟨by decide, next_of_see (by decide)⟩, by decide, next_of_see (by decide)⟩

/-- Each of the four instructions, at the top of memory. -/
theorem witness_ThreeByteTicks : Params.default.Admissible ∧ ∀ m ∈ [Mnemonic.ldi, .st, .mul, .add],
    (atTop (defaultOpc m) 0x07#8 0xFF#8).Ordinary ∧
    (atTop (defaultOpc m) 0x07#8 0xFF#8).readMem 0xFF#8 = Params.default.opc m :=
  ⟨Params.default_admissible, by decide⟩

/-- Each of the six instructions, at the top of memory, for R7 and for R2. -/
theorem witness_TwoByteTicks : Params.default.Admissible ∧
    ∀ m ∈ [Mnemonic.push, .pop, .call, .jmp, .prn, .pra], ∀ opA ∈ [0x07#8, 0x02#8],
    (atTop (defaultOpc m) opA 0x00#8).Ordinary ∧
    (atTop (defaultOpc m) opA 0x00#8).readMem 0xFF#8 = Params.default.opc m :=
  ⟨Params.default_admissible, by decide⟩

/-- RET, IRET, HLT, and the two ends of each quarter of the opcode space. -/
theorem witness_OneByteAndUndefTicks : Params.default.Admissible ∧
    (∀ m ∈ [Mnemonic.ret, .iret, .hlt], (atTop (defaultOpc m) 0x00#8 0x00#8).Ordinary ∧
      (atTop (defaultOpc m) 0x00#8 0x00#8).readMem 0xFF#8 = Params.default.opc m) ∧
    ∀ ir ∈ [0x00#8, 0x3F#8, 0x40#8, 0x7F#8, 0x80#8, 0xBF#8, 0xC0#8, 0xFF#8],
      (atTop ir 0x00#8 0x00#8).Ordinary ∧ (atTop ir 0x00#8 0x00#8).readMem 0xFF#8 = ir ∧
      Params.default.unrecognised ir = true :=
  ⟨Params.default_admissible, by decide⟩

theorem witness_PushPopRoundTrip : Reg.r0 ≠ .sp ∧ Reg.r6 ≠ .sp := by decide

theorem witness_CallRetRoundTrip : ∃ t c : State, exec (.call .r2) (atTop 0x48#8 0x02#8 0x00#8) = .next t ∧
    c.reg .sp = t.reg .sp ∧ c.readMem (c.reg .sp) = t.readMem (t.reg .sp) ∧ c.reg .r0 = 0x55#8 :=
  have ⟨t, ht, h⟩ := next_of_see (o := exec (.call .r2) (atTop 0x48#8 0x02#8 0x00#8))
    (P := fun t => (t.setReg .r0 0x55#8).reg .sp = t.reg .sp ∧
      (t.setReg .r0 0x55#8).readMem ((t.setReg .r0 0x55#8).reg .sp) = t.readMem (t.reg .sp) ∧
      (t.setReg .r0 0x55#8).reg .r0 = 0x55#8) (by decide)
  ⟨t, t.setReg .r0 0x55#8, ht, h⟩

/-- The lowest source, the highest, and none: IE 0, nothing pending. -/
theorem witness_ServicedSourceIsLowestPending : entryState.serviced = some 0 ∧
    (running ((zeros.set .r5 0x80#8).set .r6 0x80#8) 0x20#8 []).serviced = some 7 ∧
    (entryState.setIe false).serviced = none ∧ (entryState.setReg .r5 0x02#8).serviced = none := by decide

/-- Both clauses; the second through each of its alternatives. -/
theorem witness_InterruptEntry : entryState.serviced = some 0 ∧
    (running ((zeros.set .r5 0x80#8).set .r6 0x80#8) 0x20#8 []).serviced = some 7 ∧
    (entryState.setIe false).ie = false ∧
    (entryState.setReg .r5 0x02#8).reg .is &&& (entryState.setReg .r5 0x02#8).reg .im = 0#8 := by decide

/-- At both ends of the range of SP. -/
theorem witness_EntryLeavesVectorTable : ∀ sp ∈ [0x08#8, 0xF8#8],
    (entryState.setReg .sp sp).serviced = some 0 ∧ (entryState.setReg .sp sp).FrameClearOfTable := by decide

/-- A handler that changed R0, R5, R6 and memory outside the frame. -/
theorem witness_IretUndoesEntry : entryState.serviced = some 0 ∧ ∃ u : State,
    u = (((entryState.interruptCheck.setReg .r0 0x99#8).setReg .im 0xFF#8).setReg .is 0x02#8).writeMem 0x10#8 0x77#8 ∧
    u.reg .sp = entryState.interruptCheck.reg .sp ∧
    ∀ a ∈ frameAddrs entryState, u.readMem a = entryState.interruptCheck.readMem a :=
  ⟨by decide, _, rfl, by decide, by decide⟩

/-- Every clause: IRET and another instruction; an ordinary tick; an entry tick of each reading; each event other
than a tick. -/
theorem witness_IeWrittenOnlyByEntryAndIret (img : Image) :
    (∃ t, exec .iret (entryState.setIe false) = .next t ∧ t.ie = true) ∧
    (∃ t, exec .hlt (entryState.setIe false) = .next t ∧ t.ie = false) ∧
    (entryState.setIe false).ie = false ∧
    ((atTop 0x0B#8 0x00#8 0x00#8).halt = false ∧ (atTop 0x0B#8 0x00#8 0x00#8).serviced = none ∧
      ∃ t, tickWith entryOnly (atTop 0x0B#8 0x00#8 0x00#8) = .next t ∧ t.ie = true) ∧
    (entryState.halt = false ∧ Params.default.entryTickExecutes = true ∧
      ∃ t, tickWith Params.default entryState = .next t ∧ t.ie = false) ∧
    (entryState.halt = false ∧ entryState.serviced.isSome = true ∧ entryOnly.entryTickExecutes = false ∧
      ∃ t, tickWith entryOnly entryState = .next t ∧ t.ie = false) ∧
    ∀ e ∈ [Event.raise .timer, .start, .stop, .load img, .reset img], e ≠ .tick ∧
      ∃ t, onEvent Params.default e (entryState.setIe false) = .next t := by
  refine ⟨next_of_see (by decide), next_of_see (by decide), by decide,
    ⟨by decide, by decide, next_of_see (by decide)⟩, ⟨by decide, rfl, next_of_see (by decide)⟩,
    ⟨by decide, by decide, rfl, next_of_see (by decide)⟩, ?_⟩
  simp [onEvent]

theorem witness_OnlyIretReenables : ((atTop 0x0B#8 0x00#8 0x00#8).setIe false).ie = false ∧
    noReset [.raise .timer, .tick] ∧
    ∃ t, runEvents Params.default [.raise .timer, .tick] ((atTop 0x0B#8 0x00#8 0x00#8).setIe false) = .next t ∧
      t.ie = true :=
  ⟨by decide, by simp [noReset], next_of_see (by decide)⟩

/-- Running and halted, each source. -/
theorem witness_RaiseSetsPendingBit : State.reset.halt = false ∧ (State.reset.setHalt true).halt = true ∧
    (State.reset.raise .timer).reg .is = 0x01#8 ∧ (State.reset.raise .keyboard).reg .is = 0x02#8 := by decide

theorem witness_SoftwareRaisesInterrupt :
    ((atTop 0x99#8 0x06#8 0x80#8).setReg .im 0x80#8).Ordinary ∧
    ((atTop 0x99#8 0x06#8 0x80#8).setReg .im 0x80#8).ie = true ∧
    ((atTop 0x99#8 0x06#8 0x80#8).setReg .im 0x80#8).fetch.instr Params.default = .ldi .r6 0x80#8 ∧
    ∃ t, tickWith Params.default ((atTop 0x99#8 0x06#8 0x80#8).setReg .im 0x80#8) = .next t ∧
      t.serviced = some 7 :=
  ⟨by decide, by decide, by decide, next_of_see (by decide)⟩

/-- A handler that begins with PUSH, whose store misses its own bytes; one whose ST overwrites its own opcode; and one
that begins with HLT. -/
theorem witness_FirstHandlerInstructionRunsAgain : Params.default.entryTickExecutes = true ∧
    ((entering 0x4D#8 0x00#8 0x00#8).Enters 0 ∧
      ((entering 0x4D#8 0x00#8 0x00#8).takeInterrupt 0).fetch.instr Params.default = .push .r0 ∧
      Instr.setsPcf (.push .r0) = false ∧
      (∀ a ∈ [0x40#8, 0x41#8, 0x42#8],
        a ∉ storeAddrs (.push .r0) ((entering 0x4D#8 0x00#8 0x00#8).takeInterrupt 0)) ∧
      ((entering 0x4D#8 0x00#8 0x00#8).takeInterrupt 0).pc = 0x40#8 ∧
      ∃ t, tickWith Params.default (entering 0x4D#8 0x00#8 0x00#8) = .next t ∧ t.readMem 0xEB#8 = 0x11#8) ∧
    (((entering 0x9A#8 0x04#8 0x00#8).setReg .r4 0x40#8).Enters 0 ∧
      (((entering 0x9A#8 0x04#8 0x00#8).setReg .r4 0x40#8).takeInterrupt 0).fetch.instr Params.default = .st .r4 .r0 ∧
      Instr.setsPcf (.st .r4 .r0) = false ∧
      ∃ t, tickWith Params.default ((entering 0x9A#8 0x04#8 0x00#8).setReg .r4 0x40#8) = .next t ∧
        t.fetch.ir = 0x11#8) ∧
    (entering 0x01#8 0x00#8 0x00#8).Enters 0 ∧
    ((entering 0x01#8 0x00#8 0x00#8).takeInterrupt 0).fetch.instr Params.default = .hlt ∧
    Instr.setsPcf .hlt = false ∧
    ∃ t, tickWith Params.default (entering 0x01#8 0x00#8 0x00#8) = .next t ∧ t.halt = true :=
  ⟨rfl, ⟨by decide, by decide, rfl, by decide, by decide, next_of_see (by decide)⟩,
    ⟨by decide, by decide, rfl, next_of_see (by decide)⟩, by decide, by decide, rfl, next_of_see (by decide)⟩

/-- A handler that begins with LDI, and one that begins with an unrecognised byte. -/
theorem witness_EntryReadingsAgree : entryState.Enters 0 ∧
    (entryState.takeInterrupt 0).fetch.instr Params.default = .ldi .r0 0x07#8 ∧
    (entering 0xFF#8 0x00#8 0x00#8).Enters 0 ∧
    ((entering 0xFF#8 0x00#8 0x00#8).takeInterrupt 0).fetch.instr Params.default = .undef 0xFF#8 := by decide

theorem witness_HaltedMachineChangesNothing : (entryState.setHalt true).halt = true ∧
    ∀ e ∈ [Event.tick, .raise .timer, .raise .keyboard, .stop], e = .tick ∨ e = .stop ∨ ∃ src, e = .raise src := by
  simp

/-- Each clause: the tick of HLT; a stop of a running machine; a start of a halted one, and a reset. -/
theorem witness_OnlyHltAndStopHalt (img : Image) :
    ((atTop 0x01#8 0x00#8 0x00#8).halt = false ∧
      ∃ t, tickWith Params.default (atTop 0x01#8 0x00#8 0x00#8) = .next t ∧ t.halt = true) ∧
    (∃ t, onEvent Params.default .stop State.reset = .next t ∧ State.reset.halt = false ∧ t.halt = true) ∧
    (∃ t, onEvent Params.default .start (State.reset.setHalt true) = .next t ∧ t.halt = false) ∧
    ∃ t, onEvent Params.default (.reset img) (State.reset.setHalt true) = .next t ∧ t.halt = false :=
  ⟨⟨by decide, next_of_see (by decide)⟩, ⟨_, rfl, rfl, rfl⟩, ⟨_, rfl, rfl⟩, ⟨_, rfl, rfl⟩⟩

/-- A storing and a non-storing instruction; a tick with and a tick without an entry. -/
theorem witness_TickStoresOnlyWhereSaid :
    (∃ t, exec (.st .r2 .r2) (atTop 0x9A#8 0x02#8 0x02#8) = .next t ∧ t.readMem 0x80#8 = 0x80#8) ∧
    (∃ t, exec .ret (atTop 0x9A#8 0x02#8 0x02#8) = .next t ∧ t.mem = (atTop 0x9A#8 0x02#8 0x02#8).mem) ∧
    (∃ t, tickWith Params.default (atTop 0x9A#8 0x02#8 0x02#8) = .next t ∧ t.readMem 0x80#8 = 0x80#8) ∧
    ∃ t, tickWith Params.default entryState = .next t ∧ t.readMem 0xF3#8 = 0x20#8 :=
  ⟨next_of_see (by decide), next_of_see (by decide), next_of_see (by decide), next_of_see (by decide)⟩

/-- The stored address is the next opcode's, the next operand A's, and the next operand B's. -/
theorem witness_StoreSeenByNextFetch : ∀ a ∈ [0x02#8, 0x03#8, 0x04#8],
    ((atTop 0x9A#8 0x02#8 0x01#8).setReg .r2 a).Ordinary ∧
    ((atTop 0x9A#8 0x02#8 0x01#8).setReg .r2 a).fetch.instr Params.default = .st .r2 .r1 := by decide

/-- A tick of ST, PUSH and CALL each whose store is what the next fetch reads, and an entry tick that executes. -/
theorem witness_StoreSeenByNextFetch_tick :
    (∃ t, tickWith entryOnly ((atTop 0x9A#8 0x02#8 0x01#8).setReg .r2 0x02#8) = .next t ∧ t.pc = 0x02#8) ∧
    ((atTop 0x4D#8 0x02#8 0x00#8).setReg .sp 0x02#8).serviced = none ∧
    (∃ t, tickWith entryOnly ((atTop 0x4D#8 0x02#8 0x00#8).setReg .sp 0x02#8) = .next t ∧ t.fetch.ir = 0x80#8) ∧
    (∃ t, tickWith entryOnly ((atTop 0x48#8 0x02#8 0x00#8).setReg .sp 0x81#8) = .next t ∧ t.fetch.ir = 0x01#8) ∧
    Params.default.entryTickExecutes = true ∧
    ∃ t, tickWith Params.default ((entering 0x9A#8 0x04#8 0x00#8).setReg .r4 0x40#8) = .next t ∧
      t.fetch.ir = 0x11#8 :=
  ⟨next_of_see (by decide), by decide, next_of_see (by decide), next_of_see (by decide), rfl, next_of_see (by decide)⟩

/-- The pushes of an entry are seen by its own tick's fetch: the handler address is the frame's lowest byte. -/
theorem witness_StoreSeenByNextFetch_entry :
    (entryState.writeMem 0xF8#8 0xEC#8).interruptCheck.fetch = ⟨0x00#8, 0x01#8, 0x55#8⟩ := by decide

/-- Each alternative: PRN, PRA, neither; the last in an entry tick. -/
theorem witness_OutputOnlyGrows :
    ((atTop 0x43#8 0x02#8 0x00#8).halt = false ∧ (atTop 0x43#8 0x02#8 0x00#8).serviced = none ∧
      ∃ t, tickWith entryOnly (atTop 0x43#8 0x02#8 0x00#8) = .next t ∧ t.out = [.dec 0x80#8]) ∧
    ((atTop 0x42#8 0x02#8 0x00#8).halt = false ∧ (atTop 0x42#8 0x02#8 0x00#8).serviced = none ∧
      ∃ t, tickWith Params.default (atTop 0x42#8 0x02#8 0x00#8) = .next t ∧ t.out = [.chr 0x80#8]) ∧
    (entryState.halt = false ∧ Params.default.entryTickExecutes = true ∧
      ∃ t, tickWith Params.default entryState = .next t ∧ t.out = []) :=
  ⟨⟨by decide, by decide, next_of_see (by decide)⟩, ⟨by decide, by decide, next_of_see (by decide)⟩,
    by decide, rfl, next_of_see (by decide)⟩

theorem witness_OutputIsNeverRead : noReset [.tick, .raise .timer, .tick, .stop] ∧
    ∃ t, runEvents Params.default [.tick, .raise .timer, .tick, .stop] (atTop 0x42#8 0x02#8 0x00#8) = .next t ∧
      t.out = [.chr 0x80#8] :=
  ⟨by simp [noReset], next_of_see (by decide)⟩

/-- A memory written in two orders. -/
theorem witness_EqualMemoriesAreEqualData :
    let m := Memory.write (Memory.write [] 0xFF#8 0x01#8) 0x00#8 0x02#8
    let n := Memory.write (Memory.write [] 0x00#8 0x02#8) 0xFF#8 0x01#8
    m.wf ∧ n.wf ∧ ∀ a : Byte, Memory.read m a = Memory.read n a := by
  refine ⟨by decide, by decide, fun a => ?_⟩
  simp only [Memory.read_write]
  split <;> split <;> first | rfl | simp_all

end Sys2Proof.Tests
end

section
/-! PROOFS. Who writes IE (10_state.md R19): execute, the interrupt check, the tick and the other events, one
rule each, then O40. -/

namespace Sys2Proof.Machine

/-! ### The execute stage -/

/-- Execute writes IE for IRET alone (R19). -/
theorem execState_ie (i : Instr) (s : State) : (execState i s).ie = if i = .iret then true else s.ie := by
  cases i <;> simp [execState]

/-- An IRET does not read IE: it sets it whatever it was. -/
theorem State.returnFromInterrupt_setIe (s : State) (b : Bool) :
    (s.setIe b).returnFromInterrupt = s.returnFromInterrupt.setIe true := by
  simp only [returnFromInterrupt_eq]
  rfl

/-- Execute does not read IE: a change of IE before it changes nothing but IE after it (R19). -/
theorem execState_setIe (i : Instr) (s : State) (b : Bool) :
    execState i (s.setIe b) = (execState i s).setIe (if i = .iret then true else b) := by
  by_cases h : i = .iret
  · subst h
    exact s.returnFromInterrupt_setIe b
  · rw [if_neg h]
    cases i with
    | iret => exact absurd rfl h
    | _ => rfl

/-! ### The interrupt check -/

/-- The interrupt check clears IE exactly when it services a source (R95 step 1). -/
theorem State.interruptCheck_ie (s : State) :
    s.interruptCheck.ie = if s.serviced.isSome then false else s.ie := by
  cases h : s.serviced with
  | none => simp [s.interruptCheck_of_none h]
  | some i => simp [s.interruptCheck_of_some h]

/-! ### The tick and the other events -/

/-- Stages 2 to 5 leave IE as execute leaves it. -/
theorem runFetched_ie {p : Params} {s t : State} (h : runFetched p s = .next t) :
    t.ie = if s.fetch.instr p = .iret then true else s.ie := by
  rw [runFetched_eq] at h
  cases h
  rw [endTick_ie, advance_ie, execState_ie]

/-- A running machine's tick runs the fetched instruction after the interrupt check, unless it enters a handler
and entry ticks end after stage 1 (R64, R68). -/
theorem tickWith_eq_runFetched {p : Params} {s : State} (hh : s.halt = false)
    (hs : s.serviced = none ∨ p.entryTickExecutes = true) : tickWith p s = runFetched p s.interruptCheck := by
  cases h : s.serviced with
  | none => rw [tickWith_of_none p hh h, s.interruptCheck_of_none h]
  | some i => rw [tickWith_of_some p hh h (hs.resolve_left (by simp [h])), s.interruptCheck_of_some h]

/-- An event other than a tick keeps IE, unless it is a reset, which sets it (R26). -/
theorem onEvent_ie {p : Params} {e : Event} {s t : State} (he : e ≠ .tick) (h : onEvent p e s = .next t) :
    t.ie = s.ie ∨ ((∃ img, e = .reset img) ∧ t.ie = true) := by
  cases e with
  | tick => exact absurd rfl he
  | reset img => cases h; exact .inr ⟨⟨img, rfl⟩, rfl⟩
  | raise src =>
    cases h
    unfold State.raise
    split <;> exact .inl rfl
  | _ => cases h; exact .inl rfl

/-- Settles O40: each clause is one of the rules above. -/
theorem ieWrittenOnlyByEntryAndIret : Obligations.IeWrittenOnlyByEntryAndIret := by
  refine ⟨fun i s t h => ?_, State.interruptCheck_ie, fun s h => ?_, fun i s t b h => ?_,
    fun p s t hh hs h => ?_, fun p s t hh hs hp h => ?_, fun p e s t => onEvent_ie⟩
  · rw [exec_next h, execState_ie]
  · exact s.interruptCheck_of_none (s.serviced_of_ie_false h)
  · rw [exec_eq, execState_setIe, exec_next h]
  · exact runFetched_ie (tickWith_eq_runFetched hh hs ▸ h)
  · obtain ⟨i, hi⟩ := Option.isSome_iff_exists.1 hs
    rw [tickWith_of_entry_only p hh hi hp] at h
    cases h
    rw [endTick_ie, State.takeInterrupt_ie]

end Sys2Proof.Machine
end

section
/-! PROOFS. When a store is seen (20_memory.md R43): memory after a list of stores, what the interrupt check, a tick
and the fetch after them read, then O50. -/

namespace Sys2Proof.Machine

/-! ### Memory after a list of stores -/

/-- After no store every byte is the old one. -/
@[simp] theorem byteAfter_nil (s : State) (a : Byte) : byteAfter [] s a = s.readMem a := rfl

/-- After a list of stores the first one's byte stands at its address; elsewhere the others decide. -/
@[simp] theorem byteAfter_cons (b v : Byte) (stores : List (Byte × Byte)) (s : State) (a : Byte) :
    byteAfter ((b, v) :: stores) s a = if a = b then v else byteAfter stores s a := by
  by_cases h : a = b
  · simp [byteAfter, List.lookup, h]
  · simp [byteAfter, List.lookup, h, beq_false_of_ne]

/-- When memory is what some stores left, a fetch from it sees those stores, wherever it fetches from. -/
theorem fetchSees_of_readMem {stores : List (Byte × Byte)} {s t : State}
    (h : ∀ a, t.readMem a = byteAfter stores s a) : FetchSees stores s t := by
  simp only [FetchSees, State.fetch, h]

/-! ### The interrupt check -/

/-- Memory after an entry is the frame of R96 over the old memory. The frame's addresses are distinct, so the
order of its stores does not matter. -/
theorem State.takeInterrupt_readMem_eq_byteAfter (s : State) (i : Source) (a : Byte) :
    (s.takeInterrupt i).readMem a = byteAfter (frameCells s i) s a := by
  rw [takeInterrupt_readMem]
  simp only [frameCells, frameAddrs, List.zip_cons_cons, List.zip_nil_left, byteAfter_cons, byteAfter_nil]
  by_cases ha : a ∈ frameAddrs s
  · simp only [frameAddrs, List.mem_cons, List.not_mem_nil, or_false] at ha
    obtain rfl | rfl | rfl | rfl | rfl | rfl | rfl | rfl := ha <;> simp
  · simp only [frameAddrs, List.mem_cons, List.not_mem_nil, or_false, not_or] at ha
    simp only [ha, if_false]

/-- Memory after the interrupt check is the frame of an entry, if there is one, over the old memory. -/
theorem State.interruptCheck_readMem (s : State) (a : Byte) :
    s.interruptCheck.readMem a = byteAfter (entryCells s) s a := by
  unfold entryCells
  cases h : s.serviced with
  | none => rw [s.interruptCheck_of_none h, byteAfter_nil]
  | some i => rw [s.interruptCheck_of_some h, takeInterrupt_readMem_eq_byteAfter]

/-! ### The tick -/

/-- Stages 2 to 5 change memory by the fetched instruction's stores alone. -/
theorem runFetched_readMem {p : Params} {s t : State} (h : runFetched p s = .next t) (a : Byte) :
    t.readMem a = byteAfter (storeCells (s.fetch.instr p) s) s a := by
  rw [runFetched_eq] at h
  cases h
  rw [endTick_readMem, advance_readMem, execState_readMem]

/-- With PCF 0, stage 5 advances past a fetched ST, also past one that has stored over its own opcode byte: its
length is that of the byte fetched (R62, R70). -/
theorem runFetched_st_pc {p : Params} {s t : State} {rA rB : Reg} (hpcf : s.pcf = false)
    (hi : s.fetch.instr p = .st rA rB) (h : runFetched p s = .next t) : t.pc = s.pc + opcodeLength s.fetch.ir := by
  rw [runFetched_eq, hi] at h
  cases h
  simp [advance_pc, execState, hpcf]

/-- Settles O50: the check and the tick leave memory as their stores say, and the next fetch reads that memory. -/
theorem storeSeenByNextFetch : Obligations.StoreSeenByNextFetch := by
  refine ⟨fun s => fetchSees_of_readMem s.interruptCheck_readMem, fun p s t hh hs h => ?_,
    fun p s t rA rB ⟨hh, hs, hpcf⟩ hi h => ?_⟩
  · rw [tickWith_eq_runFetched hh hs] at h
    exact fetchSees_of_readMem (runFetched_readMem h)
  · rw [tickWith_of_none p hh hs] at h
    have hm : ∀ a, t.readMem a = byteAfter [(s.reg rA, s.reg rB)] s a := fun a => by
      rw [runFetched_readMem h, hi]
      rfl
    exact ⟨runFetched_st_pc hpcf hi h, by simp [hm], fetchSees_of_readMem hm⟩

end Sys2Proof.Machine
end

section
/-! PROOFS. PCF and the advance of `pc` (40_cycle_engine.md R62, R63): what execute, the interrupt check, the tick and
the other events do to PCF, one rule each, then O17 and O18. -/

namespace Sys2Proof.Machine

/-! ### The execute stage and the interrupt check -/

/-- Execute sets PCF for CALL, JMP, RET and IRET, and otherwise keeps it (R62). -/
theorem execState_pcf (i : Instr) (s : State) : (execState i s).pcf = (s.pcf || Instr.setsPcf i) := by
  cases i <;> simp [execState, Instr.setsPcf]

/-- An instruction that does not set PCF does not write `pc` (R62). -/
theorem execState_pc_of_not_setsPcf {i : Instr} (h : Instr.setsPcf i = false) (s : State) :
    (execState i s).pc = s.pc := by
  cases i with
  | call | jmp | ret | iret => cases h
  | _ => rfl

/-- The interrupt check sets PCF exactly when it services a source (R95 step 7). -/
theorem State.interruptCheck_pcf (s : State) : s.interruptCheck.pcf = (s.pcf || s.serviced.isSome) := by
  cases h : s.serviced with
  | none => simp [s.interruptCheck_of_none h]
  | some i => simp [s.interruptCheck_of_some h]

/-! ### The tick and the other events -/

/-- Stages 2 to 5 leave `pc` as execute left it when PCF is 1, and else advance it past the fetched instruction
(R62). -/
theorem runFetched_pc {p : Params} {s t : State} (h : runFetched p s = .next t) :
    t.pc = if (execState (s.fetch.instr p) s).pcf then (execState (s.fetch.instr p) s).pc
      else (execState (s.fetch.instr p) s).pc + opcodeLength s.fetch.ir := by
  rw [runFetched_eq] at h
  cases h
  rw [endTick_pc, advance_pc]

/-- A tick of a running machine clears PCF, on each of its ways; a halted one keeps it (R63, R66). -/
theorem tickWith_pcf {p : Params} {s t : State} (h : tickWith p s = .next t) : t.pcf = (s.halt && s.pcf) := by
  obtain ⟨hh, rfl⟩ | ⟨hh, -, -, rfl⟩ | ⟨hh, -, rfl⟩ := tickWith_cases h <;> simp [hh]

/-- Every event keeps PCF 0: a tick clears it, a reset gives 0, no other event writes it (R26, R63). -/
theorem onEvent_pcf_false {p : Params} {e : Event} {s t : State} (hs : s.pcf = false)
    (h : onEvent p e s = .next t) : t.pcf = false := by
  cases e with
  | tick => rw [tickWith_pcf h, hs, Bool.and_false]
  | raise src =>
    cases h
    unfold State.raise
    split <;> exact hs
  | reset img => cases h; rfl
  | _ => cases h; exact hs

/-- Every schedule keeps PCF 0. -/
theorem runEvents_pcf_false {p : Params} {es : List Event} {s t : State} (hs : s.pcf = false)
    (h : runEvents p es s = .next t) : t.pcf = false := by
  induction es generalizing s with
  | nil => cases h; exact hs
  | cons e es ih =>
    obtain ⟨u, hu, ht⟩ := runEvents_cons h
    exact ih (onEvent_pcf_false hs hu) ht

/-- Settles O17: execute answers with `execState`, on the state that the interrupt check left. -/
theorem advanceUnlessPcfSet : Obligations.AdvanceUnlessPcfSet := by
  intro p s t hh hs h
  rw [tickWith_eq_runFetched hh hs] at h
  exact ⟨_, exec_eq _ _, by rw [execState_pcf, State.interruptCheck_pcf], runFetched_pc h,
    fun hi => execState_pc_of_not_setsPcf hi _⟩

/-- Settles O18: the tick by its rule, every schedule by induction. -/
theorem pcfClearedByEveryTick : Obligations.PcfClearedByEveryTick := by
  refine ⟨fun p s t hh h => ?_, fun p es s t => runEvents_pcf_false⟩
  rw [tickWith_pcf h, hh, Bool.false_and]

end Sys2Proof.Machine
end

section
/-! PROOFS. The ALU (42_alu.md R71): its two results as numbers, what a register write keeps, then O21. -/

namespace Sys2Proof.Machine

/-- ADD's result is the sum mod 256 (R71). -/
theorem alu_add_toNat (a b : Byte) : (alu .add a b).toNat = (a.toNat + b.toNat) % 256 := BitVec.toNat_add a b

/-- MUL's result is the product mod 256 (R71). -/
theorem alu_mul_toNat (a b : Byte) : (alu .mul a b).toNat = (a.toNat * b.toNat) % 256 := BitVec.toNat_mul a b

/-- Writing a register keeps every other register, all memory, the flags, `pc` and OUT. -/
theorem State.setReg_keeps_rest (s : State) (r : Reg) (v : Byte) :
    RegsKeptExcept [r] s (s.setReg r v) ∧ MemKeptExcept [] s (s.setReg r v) ∧ FlagsKept s (s.setReg r v) ∧
    (s.setReg r v).pc = s.pc ∧ (s.setReg r v).out = s.out :=
  ⟨fun _ hq => s.setReg_reg_of_ne v (List.ne_of_not_mem_cons hq), fun a _ => s.setReg_readMem r v a,
    ⟨s.setReg_ie r v, s.setReg_pcf r v, s.setReg_halt r v⟩, s.setReg_pc r v, s.setReg_out r v⟩

/-- Settles O21: ADD and MUL each write the ALU's result into the destination, and that write keeps the rest. -/
theorem aluWritesDestinationOnly : Obligations.AluWritesDestinationOnly := by
  refine ⟨fun rA rB s => ⟨_, exec_add s rA rB, ?_, s.setReg_reg_self rA _, s.setReg_keeps_rest rA _⟩,
    fun rA rB s => ⟨_, exec_mul s rA rB, ?_, s.setReg_reg_self rA _, s.setReg_keeps_rest rA _⟩⟩
  · rw [State.setReg_reg_self]
    exact alu_add_toNat _ _
  · rw [State.setReg_reg_self]
    exact alu_mul_toNat _ _

end Sys2Proof.Machine
end

section
/-! PROOFS. The interrupt check (60_exceptions.md R93 to R95): which source it services, what it leaves when it services
none, and what an entry saves and keeps, then O36 and O37. -/

namespace Sys2Proof.Machine

/-! ### Which source is serviced -/

/-- A source is pending when its bit of IS and its bit of IM are both 1 (R93). -/
theorem State.pending_getLsbD (s : State) (k : Nat) :
    s.pending.getLsbD k = ((s.reg .is).getLsbD k && (s.reg .im).getLsbD k) := BitVec.getLsbD_and

/-- With IE 1 the check services the lowest pending source, with IE 0 none (R93, R94). -/
theorem State.serviced_eq_some (s : State) (i : Source) :
    s.serviced = some i ↔ s.ie = true ∧ lowestSet s.pending = some i :=
  Option.ite_none_right_eq_some

/-- The check services no source exactly when IE is 0 or nothing is pending (R93, R94). -/
theorem State.serviced_eq_none (s : State) :
    s.serviced = none ↔ s.ie = false ∨ s.reg .is &&& s.reg .im = 0#8 := by
  cases h : s.ie with
  | false => simp [s.serviced_of_ie_false h]
  | true => simp [State.serviced, h, lowestSet_eq_none, State.pending]

/-- Settles O36: the lowest set bit of `pending` is the lowest source with both its bits 1, and, with no source
serviced the check does nothing. -/
theorem servicedSourceIsLowestPending : Obligations.ServicedSourceIsLowestPending := by
  refine ⟨fun s i => ?_, fun s => ⟨fun h => ⟨s.interruptCheck_of_none h, s.serviced_eq_none.1 h⟩,
    fun ⟨_, h⟩ => s.serviced_eq_none.2 h⟩⟩
  simp only [s.serviced_eq_some, lowestSet_eq_some, State.pending_getLsbD, Bool.and_eq_true, and_assoc,
    ← Bool.not_eq_true]

/-! ### What an entry saves and keeps -/

/-- An entry keeps every register but IS and SP. -/
theorem State.takeInterrupt_regsKept (s : State) (i : Source) :
    RegsKeptExcept [.is, .sp] s (s.takeInterrupt i) := by
  intro r hr
  simp only [List.mem_cons, List.not_mem_nil, or_false, not_or] at hr
  rw [takeInterrupt_reg, if_neg hr.2, if_neg hr.1]

/-- An entry keeps every byte outside its frame (R96). -/
theorem State.takeInterrupt_memKept (s : State) (i : Source) :
    MemKeptExcept (frameAddrs s) s (s.takeInterrupt i) := by
  intro a ha
  simp only [frameAddrs, List.mem_cons, List.not_mem_nil, or_false, not_or] at ha
  simp only [takeInterrupt_readMem, ha, if_false]

/-- Settles O37: the check that services a source is its entry, and each clause is one field of it. -/
theorem interruptEntry : Obligations.InterruptEntry := by
  refine ⟨fun s i h => ?_, fun s h => s.interruptCheck_of_none (s.serviced_eq_none.2 h)⟩
  simp only [s.interruptCheck_of_some h]
  refine ⟨s.takeInterrupt_ie i, s.takeInterrupt_reg .is i, s.takeInterrupt_reg .sp i, s.takeInterrupt_regsKept i,
    ?_, ?_, ?_, ?_, ?_, ?_, ?_, ?_, s.takeInterrupt_memKept i, s.takeInterrupt_pc i, s.takeInterrupt_pcf i,
    s.takeInterrupt_halt i, s.takeInterrupt_out i⟩
  -- the eight bytes of the frame, at distinct addresses
  all_goals simp [State.takeInterrupt_readMem, sourceBit]

end Sys2Proof.Machine
end

section
/-! PROOFS. The tick, the events and the schedules as total functions (40_cycle_engine.md R64; 00_scope.md R8, R9), and
the invariant that they keep, then O2, O3, O4 and O5. -/

namespace Sys2Proof.Machine

/-! ### The state after a tick, an event, a schedule -/

/-- The state that stages 2 to 5 leave. -/
def runState (p : Params) (s : State) : State :=
  ((execState (s.fetch.instr p) s).advance s.fetch.ir).endTick

/-- The state after a tick (R64, R66, R68). -/
def tickState (p : Params) (s : State) : State :=
  if s.halt then s
  else if s.serviced.isSome && !p.entryTickExecutes then s.interruptCheck.endTick
  else runState p s.interruptCheck

/-- The state after an event (R8). -/
def eventState (p : Params) : Event → State → State
  | .tick, s => tickState p s
  | .raise src, s => s.raise src
  | .reset img, _ => State.resetWith img
  | .load img, s => s.load img
  | .start, s => s.setHalt false
  | .stop, s => s.setHalt true

/-- The state after a schedule (R9). -/
def scheduleState (p : Params) : List Event → State → State
  | [], s => s
  | e :: es, s => scheduleState p es (eventState p e s)

theorem runFetched_eq_runState (p : Params) (s : State) : runFetched p s = .next (runState p s) := runFetched_eq s p

/-- A tick always answers (R90). -/
theorem tickWith_eq (p : Params) (s : State) : tickWith p s = .next (tickState p s) := by
  unfold tickWith tickState
  split
  · rfl
  · split
    · rfl
    · exact runFetched_eq_runState p _

theorem step_eq_tickState (s : State) : step s = .next (tickState Params.default s) := tickWith_eq Params.default s

/-- Every event answers (R90). -/
theorem onEvent_eq (p : Params) (e : Event) (s : State) : onEvent p e s = .next (eventState p e s) := by
  cases e with
  | tick => exact tickWith_eq p s
  | _ => rfl

/-- Every schedule answers (R90). -/
theorem runEvents_eq (p : Params) (es : List Event) (s : State) :
    runEvents p es s = .next (scheduleState p es s) := by
  induction es generalizing s with
  | nil => rfl
  | cons e es ih => rw [runEvents, onEvent_eq]; exact ih _

/-- What every event of a schedule keeps, the schedule keeps. -/
theorem scheduleState_keeps {p : Params} {P : State → Prop} {es : List Event}
    (hP : ∀ e ∈ es, ∀ s, P s → P (eventState p e s)) {s : State} (hs : P s) : P (scheduleState p es s) := by
  induction es generalizing s with
  | nil => exact hs
  | cons e es ih =>
    exact ih (fun d hd => hP d (List.mem_cons_of_mem e hd)) (hP e List.mem_cons_self s hs)

/-- Settles O5: execute, a tick and a schedule each answer with the state of their total function. -/
theorem nothingStops : Obligations.NothingStops :=
  ⟨fun i s => ⟨_, exec_eq s i⟩, fun s => ⟨_, step_eq_tickState s⟩, fun p es s => ⟨_, runEvents_eq p es s⟩⟩

/-! ### Canonical memory -/

/-- Execute keeps the canonical form: only PUSH, CALL and ST write memory, through the memory port. -/
theorem execState_wf (i : Instr) {s : State} (h : s.mem.wf) : (execState i s).mem.wf := by
  cases i with
  | push rA => exact State.push_wf s _ h
  | call rA => exact State.push_wf s _ h
  | st rA rB => exact Memory.write_wf h _ _
  | iret => exact (State.returnFromInterrupt_mem s).symm ▸ h
  | _ => exact h

/-- The interrupt check keeps the canonical form. -/
theorem State.interruptCheck_wf {s : State} (h : s.mem.wf) : s.interruptCheck.mem.wf := by
  cases hs : s.serviced with
  | none => rwa [s.interruptCheck_of_none hs]
  | some i => rw [s.interruptCheck_of_some hs]; exact s.takeInterrupt_wf i h

/-- A tick keeps the canonical form, on each of its ways. -/
theorem tickWith_wf {p : Params} {s t : State} (hs : s.mem.wf) (h : tickWith p s = .next t) : t.mem.wf := by
  obtain ⟨-, rfl⟩ | ⟨-, -, -, rfl⟩ | ⟨-, -, rfl⟩ := tickWith_cases h
  · exact hs
  · exact State.interruptCheck_wf hs
  · rw [endTick_mem, advance_mem]
    exact execState_wf _ (State.interruptCheck_wf hs)

/-- Raising a source leaves memory alone (R92). -/
theorem State.raise_mem (s : State) (src : ExtSource) : (s.raise src).mem = s.mem := by
  unfold State.raise
  split <;> rfl

/-- Every event keeps the canonical form; a reset and a load bring one (R26, R114). -/
theorem eventState_wf (p : Params) (e : Event) {s : State} (h : s.mem.wf) : (eventState p e s).mem.wf := by
  cases e with
  | tick => exact tickWith_wf h (tickWith_eq p s)
  | raise src => exact (s.raise_mem src).symm ▸ h
  | reset img => exact Memory.ofImage_wf img
  | load img => exact Memory.ofImage_wf img
  | start => exact h
  | stop => exact h

/-! ### The invariant -/

/-- Settles O2: reset has PCF 0 and memory with nothing listed, or that of an image. -/
theorem resetMeetsInvariant : Obligations.ResetMeetsInvariant :=
  ⟨⟨Memory.nil_wf, rfl⟩, fun img => ⟨Memory.ofImage_wf img, rfl⟩⟩

/-- Settles O3: a tick keeps each half of the invariant. -/
theorem stepKeepsInvariant : Obligations.StepKeepsInvariant := by
  intro s t ⟨hmem, hpcf⟩ h
  exact ⟨tickWith_wf hmem h, by rw [tickWith_pcf h, hpcf, Bool.and_false]⟩

/-- Settles O4: every event keeps each half of the invariant, so every schedule does. -/
theorem everyScheduleKeepsInvariant : Obligations.EveryScheduleKeepsInvariant := by
  intro p es s t ⟨hmem, hpcf⟩ h
  refine ⟨?_, runEvents_pcf_false hpcf h⟩
  rw [runEvents_eq] at h
  cases h
  exact scheduleState_keeps (P := fun s => s.mem.wf) (fun e _ _ => eventState_wf p e) hmem

end Sys2Proof.Machine
end

section
/-! PROOFS. The encoding (30_encoding.md): what the decoder reads by operand count, which operand bytes an instruction
does not read, and the unrecognised opcodes, then O7 to O13. -/

namespace Sys2Proof

/-! ### Operand bytes that are not read -/

/-- A mnemonic without operands reads neither operand byte (R46). -/
theorem Instr.ofMnemonic_of_count_zero {m : Mnemonic} (h : m.operandCount = 0) (opA opB opA' opB' : Byte) :
    Instr.ofMnemonic m opA opB = Instr.ofMnemonic m opA' opB' := by
  cases m with
  | ret | iret | hlt => rfl
  | _ => exact absurd h (by decide)

/-- A mnemonic with one operand does not read operand byte B (R46). -/
theorem Instr.ofMnemonic_of_count_one {m : Mnemonic} (h : m.operandCount = 1) (opA opB opB' : Byte) :
    Instr.ofMnemonic m opA opB = Instr.ofMnemonic m opA opB' := by
  cases m with
  | push | pop | call | jmp | prn | pra => rfl
  | _ => exact absurd h (by decide)

/-- No mnemonic has three operands (R49). -/
theorem Mnemonic.operandCount_cases (m : Mnemonic) :
    m.operandCount = 0 ∨ m.operandCount = 1 ∨ m.operandCount = 2 := by
  cases m <;> decide

/-! ### The byte-list decoder, by operand count -/

section
variable {p : Params} {ir : Byte} {m : Mnemonic}

theorem decodeWith_of_none (h : mnemonicOf p ir = none) (rest : List Byte) :
    decodeWith p (ir :: rest) = .ok (.undef ir) := by
  simp [decodeWith, h]

theorem decodeWith_of_count_zero (h : mnemonicOf p ir = some m) (hc : m.operandCount = 0) (opA opB : Byte)
    (rest : List Byte) : decodeWith p (ir :: rest) = .ok (Instr.ofMnemonic m opA opB) := by
  rw [Instr.ofMnemonic_of_count_zero hc opA opB 0 0]
  simp [decodeWith, h, hc]

theorem decodeWith_of_count_one (h : mnemonicOf p ir = some m) (hc : m.operandCount = 1) (opA opB : Byte)
    (rest : List Byte) : decodeWith p (ir :: opA :: rest) = .ok (Instr.ofMnemonic m opA opB) := by
  rw [Instr.ofMnemonic_of_count_one hc opA opB 0]
  simp [decodeWith, h, hc]

theorem decodeWith_of_count_two (h : mnemonicOf p ir = some m) (hc : m.operandCount = 2) (opA opB : Byte)
    (rest : List Byte) : decodeWith p (ir :: opA :: opB :: rest) = .ok (Instr.ofMnemonic m opA opB) := by
  simp [decodeWith, h, hc]

/-! ### The decoder of the fetched bytes -/

theorem decodeFetched_of_some (h : mnemonicOf p ir = some m) (opA opB : Byte) :
    decodeFetched p ir opA opB = Instr.ofMnemonic m opA opB := by
  simp [decodeFetched, h]

theorem decodeFetched_of_none (h : mnemonicOf p ir = none) (opA opB : Byte) :
    decodeFetched p ir opA opB = .undef ir := by
  simp [decodeFetched, h]

/-- On three bytes the two decoders agree (R47, R60). -/
theorem decodeWith_eq_decodeFetched (p : Params) (ir opA opB : Byte) :
    decodeWith p [ir, opA, opB] = .ok (decodeFetched p ir opA opB) := by
  cases h : mnemonicOf p ir with
  | none => rw [decodeWith_of_none h, decodeFetched_of_none h]
  | some m =>
    rw [decodeFetched_of_some h]
    obtain hc | hc | hc := m.operandCount_cases
    · exact decodeWith_of_count_zero h hc opA opB [opA, opB]
    · exact decodeWith_of_count_one h hc opA opB [opB]
    · exact decodeWith_of_count_two h hc opA opB []

/-- An instruction with a mnemonic is well formed. -/
theorem Instr.wellFormed_ofMnemonic (p : Params) (m : Mnemonic) (opA opB : Byte) :
    (Instr.ofMnemonic m opA opB).wellFormed p = true := by
  cases m <;> rfl

/-- An instruction's encoding starts with the opcode byte of its mnemonic. -/
theorem encodeWith_ofMnemonic_head? (p : Params) (m : Mnemonic) (opA opB : Byte) :
    (encodeWith p (Instr.ofMnemonic m opA opB)).head? = some (p.opc m) := by
  cases m <;> rfl

/-- An unrecognised opcode decodes to UNDEF, whatever follows (R51, R65). -/
theorem decodeFetched_of_unrecognised (h : p.unrecognised ir = true) (opA opB : Byte) :
    decodeFetched p ir opA opB = .undef ir :=
  decodeFetched_of_none ((mnemonicOf_eq_none p ir).2 h) opA opB

/-- A byte decodes to UNDEF exactly when it is unrecognised (R51). -/
theorem decodeFetched_eq_undef (p : Params) (ir opA opB : Byte) :
    decodeFetched p ir opA opB = .undef ir ↔ p.unrecognised ir = true := by
  refine ⟨fun h => (mnemonicOf_eq_none p ir).1 ?_, fun h => decodeFetched_of_unrecognised h opA opB⟩
  cases hm : mnemonicOf p ir with
  | none => rfl
  | some m =>
    rw [decodeFetched_of_some hm] at h
    have hn := Instr.mnemonic_ofMnemonic m opA opB
    rw [h] at hn
    cases hn

/-- A recognised byte's count field is its mnemonic's operand count (R50 b). -/
theorem countField_of_mnemonicOf (hp : p.Admissible) (h : mnemonicOf p ir = some m) :
    countField ir = m.operandCount :=
  opc_of_mnemonicOf h ▸ hp.2 m

end

/-! ### How many bytes are unrecognised -/

/-- A byte is recognised exactly when it is some mnemonic's opcode value (R51). -/
theorem Params.unrecognised_eq_false (p : Params) (ir : Byte) :
    p.unrecognised ir = false ↔ ∃ m, p.opc m = ir := by
  rw [← Bool.not_eq_true, ← mnemonicOf_eq_none, ← ne_eq, Option.ne_none_iff_exists']
  constructor
  · exact fun ⟨m, hm⟩ => ⟨m, opc_of_mnemonicOf hm⟩
  · intro ⟨m, hm⟩
    simp only [mnemonicOf, ← Option.isSome_iff_exists, List.find?_isSome]
    exact ⟨m, m.mem_all, by simp [hm]⟩

/-- Under an admissible assignment the recognised byte values are, in some order, the thirteen opcode values. -/
theorem recognised_perm_opc {p : Params} (hp : p.Admissible) :
    ((List.range 256).filter fun n => !p.unrecognised (BitVec.ofNat 8 n)).Perm
      (Mnemonic.all.map fun m => (p.opc m).toNat) := by
  refine (List.perm_ext_iff_of_nodup (List.nodup_range.filter _) (List.Nodup.map ?_ (by decide))).2 fun n => ?_
  · exact fun m n h => hp.1 m n (BitVec.eq_of_toNat_eq h)
  · simp only [List.mem_filter, List.mem_range, Bool.not_eq_true', p.unrecognised_eq_false, List.mem_map]
    constructor
    · intro ⟨hn, m, hm⟩
      exact ⟨m, m.mem_all, by rw [hm, BitVec.toNat_ofNat, Nat.mod_eq_of_lt hn]⟩
    · intro ⟨m, _, hm⟩
      exact ⟨hm ▸ (p.opc m).isLt, m, by rw [← hm, BitVec.ofNat_toNat, BitVec.setWidth_eq]⟩

/-! ### Register indices -/

/-- The operand byte of an index is the index (R48). -/
theorem Reg.toByte_ofIndex (i : BitVec 3) : (Reg.ofIndex i).toByte = i.setWidth 8 := by
  revert i
  decide

/-- A register operand's own byte is its low three bits (R48; D3). -/
theorem Reg.toByte_ofByte (b : Byte) : (Reg.ofByte b).toByte = b &&& 0x07#8 := by
  rw [Reg.ofByte, Reg.toByte_ofIndex]
  revert b
  decide +kernel

/-- Bits 7:3 of a register operand byte do not matter (R48; D3). -/
theorem Reg.ofByte_low (b : Byte) : Reg.ofByte (b &&& 0x07#8) = Reg.ofByte b := by
  rw [← Reg.toByte_ofByte, Reg.ofByte_toByte]

/-! ### The obligations -/

/-- Settles O7: the comparison finds the mnemonic from its byte, and each register is read back from its index. -/
theorem decodeEncodeAgree : Obligations.DecodeEncodeAgree := by
  intro p hp i hi rest
  have two (m : Mnemonic) (hc : m.operandCount = 2) (opA opB : Byte) :
      decodeWith p (p.opc m :: opA :: opB :: rest) = .ok (Instr.ofMnemonic m opA opB) :=
    decodeWith_of_count_two (mnemonicOf_opc hp m) hc opA opB rest
  have one (m : Mnemonic) (hc : m.operandCount = 1) (opA : Byte) :
      decodeWith p (p.opc m :: opA :: rest) = .ok (Instr.ofMnemonic m opA 0) :=
    decodeWith_of_count_one (mnemonicOf_opc hp m) hc opA 0 rest
  have zero (m : Mnemonic) (hc : m.operandCount = 0) :
      decodeWith p (p.opc m :: rest) = .ok (Instr.ofMnemonic m 0 0) :=
    decodeWith_of_count_zero (mnemonicOf_opc hp m) hc 0 0 rest
  cases i with
  | ldi | mul | add | st =>
    refine (two _ ?_ _ _).trans ?_
    · rfl
    · simp [Instr.ofMnemonic]
  | push | pop | call | jmp | prn | pra =>
    refine (one _ ?_ _).trans ?_
    · rfl
    · simp [Instr.ofMnemonic]
  | ret | iret | hlt => exact zero _ rfl
  | undef ir => exact decodeWith_of_none ((mnemonicOf_eq_none p ir).2 hi) rest

/-- Settles O8: by whether the comparison finds a mnemonic. -/
theorem fetchedBytesDecode : Obligations.FetchedBytesDecode := by
  intro p ir opA opB
  have hagree := decodeWith_eq_decodeFetched p ir opA opB
  cases h : mnemonicOf p ir with
  | none =>
    rw [decodeFetched_of_none h] at hagree ⊢
    exact ⟨(mnemonicOf_eq_none p ir).1 h, hagree, rfl⟩
  | some m =>
    rw [decodeFetched_of_some h] at hagree ⊢
    exact ⟨Instr.wellFormed_ofMnemonic p m opA opB, hagree, by rw [encodeWith_ofMnemonic_head?, opc_of_mnemonicOf h]⟩

/-- Settles O9: the decoder runs on each word. -/
theorem sampleWordsDecode : Obligations.SampleWordsDecode := ⟨rfl, rfl, rfl, rfl, rfl, rfl⟩

/-- Settles O10: thirteen of the 256 byte values are recognised, the rest are not. -/
theorem unrecognisedOpcodes : Obligations.UnrecognisedOpcodes := by
  intro p hp
  refine ⟨?_, decodeFetched_eq_undef p⟩
  have hsum := List.length_eq_length_filter_add (l := List.range 256)
    (fun n => p.unrecognised (BitVec.ofNat 8 n))
  rw [(recognised_perm_opc hp).length_eq, List.length_range, List.length_map] at hsum
  have hall : Mnemonic.all.length = 13 := rfl
  omega

/-- Settles O11: a recognised byte's count field is an operand count, which is never 3. -/
theorem countThreeIsUnrecognised : Obligations.CountThreeIsUnrecognised := by
  intro p hp ir opA opB h3
  cases h : mnemonicOf p ir with
  | none => exact decodeFetched_of_none h opA opB
  | some m =>
    have hc := (countField_of_mnemonicOf hp h).symm.trans h3
    cases m <;> exact absurd hc (by decide)

/-- Settles O12: the fetch by definition; a byte that is found reads only its operands, one that is not reads none. -/
theorem extraFetchedBytesIgnored : Obligations.ExtraFetchedBytesIgnored := by
  refine ⟨fun s => rfl, fun p hp ir opA opB opA' opB' => ?_⟩
  cases h : mnemonicOf p ir with
  | none => simp only [decodeFetched_of_none h, implies_true, and_self]
  | some m =>
    simp only [decodeFetched_of_some h, countField_of_mnemonicOf hp h]
    refine ⟨fun hc => Instr.ofMnemonic_of_count_zero hc _ _ _ _, fun hc => Instr.ofMnemonic_of_count_one hc _ _ _,
      fun hu => ?_⟩
    rw [(mnemonicOf_eq_none p ir).2 hu] at h
    cases h

/-- Settles O13: the index a register operand byte selects is its low three bits. -/
theorem registerIndexIsLowThreeBits : Obligations.RegisterIndexIsLowThreeBits := by
  refine fun m opA opB => ⟨?_, Reg.toByte_ofByte opA⟩
  cases m <;> simp [Instr.ofMnemonic, Reg.ofByte_low]

end Sys2Proof
end

section
/-! PROOFS. The tick against the normative pseudocode (40_cycle_engine.md R64; 60_exceptions.md R95; 43_stack.md R76,
R77): the abstraction `State.arch` commutes with each operation, from the register write up to the tick, then O6. -/

namespace Sys2Proof

/-! ### The index of a register -/

/-- The number of a register, 0 to 7 (R11). -/
def Reg.index : Reg → Fin 8
  | .r0 => 0
  | .r1 => 1
  | .r2 => 2
  | .r3 => 3
  | .r4 => 4
  | .r5 => 5
  | .r6 => 6
  | .r7 => 7

@[simp] theorem Reg.ofIndex_index (r : Reg) : Reg.ofIndex (BitVec.ofFin r.index) = r := by
  cases r <;> rfl

theorem Reg.index_ofIndex (i : Fin 8) : (Reg.ofIndex (BitVec.ofFin i)).index = i := by
  revert i
  decide

/-- The register an operand byte selects has the number in its low three bits (R48). -/
theorem Reg.index_ofByte (b : Byte) : (Reg.ofByte b).index = (b.extractLsb' 0 3).toFin := Reg.index_ofIndex _

theorem Reg.ofIndex_eq_iff (i : Fin 8) (r : Reg) : Reg.ofIndex (BitVec.ofFin i) = r ↔ i = r.index :=
  ⟨fun h => h ▸ (Reg.index_ofIndex i).symm, fun h => h ▸ r.ofIndex_index⟩

/-- The length of the advance is one plus the top two bits of the opcode byte (R45, R62). -/
theorem opcodeLength_eq_shift (ir : Byte) : opcodeLength ir = 1 + (ir >>> 6) := by
  refine congrArg (1#8 + ·) (BitVec.eq_of_toNat_eq ?_)
  have := ir.isLt
  simp only [countField, BitVec.toNat_setWidth, BitVec.extractLsb'_toNat, BitVec.toNat_ushiftRight,
    Nat.shiftRight_eq_div_pow]
  omega

namespace Machine

variable (s : State) (r : Reg) (v a : Byte)

/-! ### The operations -/

theorem arch_x : s.arch.x r.index = s.reg r := congrArg s.reg r.ofIndex_index

theorem arch_setReg : (s.setReg r v).arch = s.arch.setX r.index v := by
  have hx : (s.setReg r v).arch.x = Function.update s.arch.x r.index v := by
    funext i
    simp only [State.arch, State.setReg_reg, Function.update_apply, Reg.ofIndex_eq_iff]
  exact congrArg (fun x => { s.arch with x := x }) hx

theorem arch_writeMem : (s.writeMem a v).arch = s.arch.memWrite a v := by
  have hM : (s.writeMem a v).arch.M = Function.update s.arch.M a v := by
    funext b
    simp only [State.arch, State.writeMem_readMem, Function.update_apply]
  exact congrArg (fun M => { s.arch with M := M }) hM

theorem arch_setPc : (s.setPc v).arch = { s.arch with pc := v } := rfl
theorem arch_setIe (b : Bool) : (s.setIe b).arch = { s.arch with IE := b } := rfl
theorem arch_setPcf (b : Bool) : (s.setPcf b).arch = { s.arch with PCF := b } := rfl
theorem arch_emit (e : OutEvent) : (s.emit e).arch = { s.arch with OUT := s.arch.OUT ++ [e] } := rfl

/-- The push (R76). -/
theorem arch_push : (s.push v).arch = s.arch.push v := by
  rw [State.push, arch_writeMem, arch_setReg]
  rfl

/-- The pop into a register (R77). -/
theorem arch_pop : ((s.setReg .sp (s.reg .sp + 1#8)).setReg r (s.readMem (s.reg .sp))).arch =
    s.arch.popX r.index := by
  rw [arch_setReg, arch_setReg]
  rfl

/-- The pop into `pc` (R77). -/
theorem arch_popPc : ((s.setReg .sp (s.reg .sp + 1#8)).setPc (s.readMem (s.reg .sp))).arch = s.arch.popPc := by
  rw [arch_setPc, arch_setReg]
  rfl

/-! ### Interrupts -/

/-- The acknowledgement of a source (R95 step 2). -/
theorem arch_clearPending (i : Source) : (s.clearPending i).arch =
    s.arch.setX 6 (s.arch.x 6 &&& ~~~(1#8 <<< i.val)) := arch_setReg s .is _

/-- The entry (R95 steps 1 to 6). -/
theorem arch_takeInterrupt (i : Source) : (s.takeInterrupt i).arch = s.arch.enter i := by
  have pushReg (t : State) (q : Reg) : (t.push (t.reg q)).arch = t.arch.push (t.arch.x q.index) := by
    rw [arch_push, arch_x]
  have pushPc (t : State) : (t.push t.pc).arch = t.arch.push t.arch.pc := arch_push t t.pc
  have loadPc (t : State) (b : Byte) : (t.setPc (t.readMem b)).arch = { t.arch with pc := t.arch.M b } := rfl
  simp only [State.takeInterrupt, frameRegs, State.pushRegs_cons, State.pushRegs_nil, arch_setPcf, loadPc, pushReg,
    pushPc, arch_clearPending, arch_setIe]
  rfl

/-- The return (R85). -/
theorem arch_returnFromInterrupt : s.returnFromInterrupt.arch =
    { (((((((({ s.arch with IE := true } : Arch).popX 6).popX 5).popX 4).popX 3).popX 2).popX 1).popX 0).popPc with
      PCF := true } := by
  simp only [State.returnFromInterrupt, State.pop_fst, State.pop_snd, arch_setPcf, arch_popPc]
  simp only [frameRegs, List.reverse_cons, List.reverse_nil, List.nil_append, List.cons_append,
    State.popRegs_cons, State.popRegs_nil, arch_pop, arch_setIe]
  rfl

/-- The scan enters the first pending source of the list (R95). -/
theorem Arch.scan_eq (m : Arch) (pending : Byte) (l : List (Fin 8)) :
    m.scan pending l = (l.find? fun i => pending.getLsbD i.val).elim m m.enter := by
  induction l with
  | nil => rfl
  | cons i l ih =>
    rw [Arch.scan, List.find?_cons]
    cases pending.getLsbD i.val with
    | true => rfl
    | false => exact ih

/-- Stage 1 (R95). -/
theorem arch_interruptCheck : s.interruptCheck.arch = s.arch.interruptCheck := by
  have hscan : s.arch.interruptCheck =
      if s.ie = true then (lowestSet s.pending).elim s.arch s.arch.enter else s.arch := by
    rw [Arch.interruptCheck, Arch.scan_eq]
    rfl
  rw [hscan, State.interruptCheck, State.serviced]
  cases s.ie with
  | false => rfl
  | true =>
    cases lowestSet s.pending with
    | none => rfl
    | some i => exact arch_takeInterrupt s i

/-- A source is serviced exactly under the condition of R64's entry tick. -/
theorem serviced_isSome_iff : s.serviced.isSome = true ↔ s.arch.IE = true ∧ s.arch.x 6 &&& s.arch.x 5 ≠ 0 := by
  rw [Option.isSome_iff_ne_none, ne_eq, s.serviced_eq_none, not_or, Bool.not_eq_false]
  rfl

/-! ### The execute stage and the tick -/

/-- The arm of a mnemonic in the `case` of R64. -/
def Arch.arm (m : Arch) (opA opB : Byte) (n : Mnemonic) : Arch :=
  let rA : Fin 8 := (opA.extractLsb' 0 3).toFin
  let rB : Fin 8 := (opB.extractLsb' 0 3).toFin
  match n with
  | .ldi => m.setX rA opB
  | .mul => m.setX rA (m.x rA * m.x rB)
  | .add => m.setX rA (m.x rA + m.x rB)
  | .push => m.push (m.x rA)
  | .pop => m.popX rA
  | .call => { m.push (m.pc + 2) with pc := (m.push (m.pc + 2)).x rA, PCF := true }
  | .jmp => { m with pc := m.x rA, PCF := true }
  | .ret => { m.popPc with PCF := true }
  | .iret =>
    { (((((((({ m with IE := true } : Arch).popX 6).popX 5).popX 4).popX 3).popX 2).popX 1).popX 0).popPc with
      PCF := true }
  | .prn => { m with OUT := m.OUT ++ [.dec (m.x rA)] }
  | .pra => { m with OUT := m.OUT ++ [.chr (m.x rA)] }
  | .st => m.memWrite (m.x rA) (m.x rB)
  | .hlt => { m with HALT := true }

/-- The `case` of R64 selects the arm of the mnemonic that the decoder's comparison finds, if any (R60). -/
theorem Arch.execute_eq (p : Params) (m : Arch) (ir opA opB : Byte) :
    m.execute p ir opA opB = (mnemonicOf p ir).elim m (m.arm opA opB) := by
  have pick (n : Mnemonic) (l : List Mnemonic) : (List.find? (fun m => p.opc m == ir) (n :: l)).elim m (m.arm opA opB) =
      if ir = p.opc n then m.arm opA opB n else (l.find? fun m => p.opc m == ir).elim m (m.arm opA opB) := by
    rw [List.find?_cons]
    by_cases h : ir = p.opc n
    · simp [h]
    · rw [if_neg h, beq_false_of_ne (Ne.symm h)]
  simp only [mnemonicOf, Mnemonic.all, pick]
  rfl

/-- The handler of a mnemonic is its arm of the `case`. -/
theorem arch_execState_ofMnemonic (n : Mnemonic) (opA opB : Byte) :
    (execState (Instr.ofMnemonic n opA opB) s).arch = s.arch.arm opA opB n := by
  cases n with
  | ldi => simp only [Instr.ofMnemonic, execState, arch_setReg, Reg.index_ofByte, Arch.arm]
  | mul | add => simp only [Instr.ofMnemonic, execState, arch_setReg, ← arch_x, Reg.index_ofByte, Arch.arm]
  | push => simp only [Instr.ofMnemonic, execState, arch_push, ← arch_x, Reg.index_ofByte, Arch.arm]
  | pop => exact (arch_pop s _).trans (by rw [Reg.index_ofByte]; rfl)
  | call =>
    simp only [Instr.ofMnemonic, execState, arch_setPcf, arch_setPc, ← arch_x, arch_push, Reg.index_ofByte, Arch.arm]
    rfl
  | jmp => simp only [Instr.ofMnemonic, execState, arch_setPcf, arch_setPc, ← arch_x, Reg.index_ofByte, Arch.arm]
  | ret => simp only [Instr.ofMnemonic, execState, arch_setPcf, arch_popPc, Arch.arm]
  | iret => exact arch_returnFromInterrupt s
  | prn | pra => simp only [Instr.ofMnemonic, execState, arch_emit, ← arch_x, Reg.index_ofByte, Arch.arm]
  | st => simp only [Instr.ofMnemonic, execState, arch_writeMem, ← arch_x, Reg.index_ofByte, Arch.arm]
  | hlt => rfl

/-- Stages 3 and 4 (R60, R61). -/
theorem arch_execState (p : Params) (ir opA opB : Byte) :
    (execState (decodeFetched p ir opA opB) s).arch = s.arch.execute p ir opA opB := by
  rw [Arch.execute_eq]
  cases h : mnemonicOf p ir with
  | none => rw [decodeFetched_of_none h]; rfl
  | some n => rw [decodeFetched_of_some h]; exact arch_execState_ofMnemonic s n opA opB

/-- Stage 5 (R62). -/
theorem arch_advance (ir : Byte) : (s.advance ir).arch =
    if s.arch.PCF = false then { s.arch with pc := s.arch.pc + (1 + (ir >>> 6)) } else s.arch := by
  rw [← opcodeLength_eq_shift, State.advance]
  have hpcf : s.arch.PCF = s.pcf := rfl
  rw [hpcf]
  cases s.pcf <;> rfl

/-- Stages 2 to 5 (R64). -/
theorem arch_runState (p : Params) : (runState p s).arch = s.arch.run p := by
  have hexec : (execState (s.fetch.instr p) s).arch = s.arch.execute p s.fetch.ir s.fetch.opA s.fetch.opB :=
    arch_execState s p _ _ _
  rw [runState, State.endTick, arch_setPcf, arch_advance, hexec]
  rfl

/-- The whole tick (R64, R66, R68). -/
theorem arch_tickState (p : Params) : (tickState p s).arch = s.arch.tick p := by
  have hhalt : s.arch.HALT = s.halt := rfl
  unfold tickState Arch.tick
  rw [hhalt]
  split
  · rfl
  · simp only [Bool.and_eq_true, Bool.not_eq_true', serviced_isSome_iff, and_comm (b := p.entryTickExecutes = false)]
    split
    · rw [State.endTick, arch_setPcf, arch_interruptCheck]
    · rw [arch_runState, arch_interruptCheck]

/-- Settles O6: the tick answers its state, and the abstraction commutes with it. -/
theorem tickIsThePseudocode : Obligations.TickIsThePseudocode :=
  ⟨fun p s => ⟨_, tickWith_eq p s, arch_tickState s p⟩, fun s => ⟨_, step_eq_tickState s, arch_tickState s _⟩⟩

end Machine

end Sys2Proof
end

section
/-! PROOFS. IE, HALT and OUT along a schedule (10_state.md R19, R21, R24; 60_exceptions.md R101): which instruction and
which event can change each, and that no step reads OUT, then O41, O47, O48, O51, O52 and O55. -/

namespace Sys2Proof.Machine

/-! ### IE -/

/-- A tick that begins with IE 0 takes no interrupt, so it can set IE only by running the IRET at `pc` (R93, R101). -/
theorem tickWith_ie_from_false {p : Params} {s t : State} (hs : s.ie = false) (h : tickWith p s = .next t)
    (ht : t.ie = true) : s.halt = false ∧ s.fetch.instr p = .iret := by
  have hnone := s.serviced_of_ie_false hs
  cases hh : s.halt with
  | true =>
    rw [tickWith_of_halt p hh] at h
    cases h
    rw [hs] at ht
    cases ht
  | false =>
    rw [tickWith_of_none p hh hnone] at h
    have hie := runFetched_ie h
    by_cases hi : s.fetch.instr p = .iret
    · exact ⟨rfl, hi⟩
    · rw [ht, if_neg hi, hs] at hie
      cases hie

/-- A schedule whose first event answers runs on from there. -/
theorem runEvents_cons_of_next {p : Params} {e : Event} {s u : State} (h : onEvent p e s = .next u)
    (es : List Event) : runEvents p (e :: es) s = runEvents p es u := by
  rw [runEvents, h]

/-- Settles O41: by induction on the schedule. Either the first event leaves IE 0, or it is the tick sought. -/
theorem onlyIretReenables : Obligations.OnlyIretReenables := by
  intro p es
  induction es with
  | nil =>
    intro s t hs _ h ht
    cases h
    rw [hs] at ht
    cases ht
  | cons e es ih =>
    intro s t hs hr h ht
    obtain ⟨u, hu, hrest⟩ := runEvents_cons h
    have hr' : noReset es := fun d hd => hr d (List.mem_cons_of_mem e hd)
    cases hie : u.ie with
    | false =>
      obtain ⟨es₁, es₂, w, rfl, hw, hiret⟩ := ih u t hie hr' hrest ht
      exact ⟨e :: es₁, es₂, w, rfl, (runEvents_cons_of_next hu es₁).trans hw, hiret⟩
    | true =>
      by_cases he : e = .tick
      · subst he
        exact ⟨[], es, s, rfl, rfl, hs, tickWith_ie_from_false hs hu hie⟩
      · obtain hkept | ⟨⟨img, rfl⟩, -⟩ := onEvent_ie he hu
        · rw [hie, hs] at hkept
          cases hkept
        · exact absurd rfl (hr _ List.mem_cons_self img)

/-! ### HALT -/

/-- Execute sets HALT for HLT, and otherwise keeps it (R88). -/
theorem execState_halt (i : Instr) (s : State) : (execState i s).halt = (s.halt || decide (i = .hlt)) := by
  cases i <;> simp [execState]

/-- The interrupt check keeps HALT. -/
@[simp] theorem State.interruptCheck_halt (s : State) : s.interruptCheck.halt = s.halt := by
  cases h : s.serviced with
  | none => rw [s.interruptCheck_of_none h]
  | some i => rw [s.interruptCheck_of_some h, takeInterrupt_halt]

/-- A tick that begins with HALT 0 and ends with HALT 1 has run HLT (R88). -/
theorem tickWith_halts {p : Params} {s t : State} (hs : s.halt = false) (h : tickWith p s = .next t)
    (ht : t.halt = true) : s.interruptCheck.fetch.instr p = .hlt := by
  obtain ⟨hh, -⟩ | ⟨-, -, -, rfl⟩ | ⟨-, -, rfl⟩ := tickWith_cases h
  · rw [hs] at hh
    cases hh
  · rw [endTick_halt, State.interruptCheck_halt, hs] at ht
    cases ht
  · rw [endTick_halt, advance_halt, execState_halt, State.interruptCheck_halt, hs, Bool.false_or] at ht
    exact of_decide_eq_true ht

/-- Raising a source keeps HALT. -/
theorem State.raise_halt (s : State) (src : ExtSource) : (s.raise src).halt = s.halt := by
  unfold State.raise
  split <;> rfl

/-- A raise of a halted machine does nothing (R92). -/
theorem State.raise_of_halt {s : State} (h : s.halt = true) (src : ExtSource) : s.raise src = s := by
  rw [State.raise, if_pos h]

/-- Settles O47: none of the three events changes a halted state. -/
theorem haltedMachineChangesNothing : Obligations.HaltedMachineChangesNothing := by
  intro p es s hs hes
  have hstep : ∀ e ∈ es, ∀ u, u = s → eventState p e u = s := by
    intro e he u hu
    subst hu
    obtain rfl | rfl | ⟨src, rfl⟩ := hes e he
    · rw [eventState, tickState, if_pos hs]
    · exact congrArg (fun b => { u with halt := b }) hs.symm
    · exact State.raise_of_halt hs src
  rw [runEvents_eq, scheduleState_keeps (P := (· = s)) hstep rfl]

/-- Settles O48: by the event; of the ticks, one that halts has run HLT, and one of a halted machine does nothing. -/
theorem onlyHltAndStopHalt : Obligations.OnlyHltAndStopHalt := by
  refine ⟨fun p s t => tickWith_halts, fun p e s t h => ?_, fun p s => ⟨rfl, rfl⟩⟩
  have unchanged (hk : t.halt = s.halt) (b : Bool) (hs : s.halt = b) (ht : t.halt = !b) : False := by
    rw [hk, hs] at ht
    cases b <;> cases ht
  cases e with
  | tick =>
    refine ⟨fun _ _ => .inl rfl, fun hs ht => (unchanged ?_ true hs ht).elim⟩
    rw [onEvent, tickWith_of_halt p hs] at h
    cases h
    rfl
  | raise src =>
    cases h
    have hk := s.raise_halt src
    exact ⟨fun hs ht => (unchanged hk false hs ht).elim, fun hs ht => (unchanged hk true hs ht).elim⟩
  | load img =>
    cases h
    have hk := s.load_halt img
    exact ⟨fun hs ht => (unchanged hk false hs ht).elim, fun hs ht => (unchanged hk true hs ht).elim⟩
  | reset img =>
    cases h
    exact ⟨fun _ ht => absurd ht Bool.false_ne_true, fun _ _ => .inr ⟨img, rfl⟩⟩
  | start =>
    cases h
    exact ⟨fun _ ht => absurd ht Bool.false_ne_true, fun _ _ => .inl rfl⟩
  | stop =>
    cases h
    exact ⟨fun _ _ => .inr rfl, fun _ ht => absurd ht.symm Bool.false_ne_true⟩

/-! ### What is appended to OUT -/

/-- The events an instruction emits (R86, R87). -/
def emitted (s : State) : Instr → List OutEvent
  | .prn r => [.dec (s.reg r)]
  | .pra r => [.chr (s.reg r)]
  | _ => []

/-- Execute appends to OUT what the instruction emits (R24). -/
theorem execState_out (i : Instr) (s : State) : (execState i s).out = s.out ++ emitted s i := by
  cases i <;> simp [execState, emitted]

/-- The interrupt check emits nothing. -/
@[simp] theorem State.interruptCheck_out (s : State) : s.interruptCheck.out = s.out := by
  cases h : s.serviced with
  | none => rw [s.interruptCheck_of_none h]
  | some i => rw [s.interruptCheck_of_some h, takeInterrupt_out]

/-- Stages 2 to 5 append to OUT what the fetched instruction emits. -/
theorem runFetched_out {p : Params} {s t : State} (h : runFetched p s = .next t) :
    t.out = s.out ++ emitted s (s.fetch.instr p) := by
  rw [runFetched_eq] at h
  cases h
  rw [endTick_out, advance_out, execState_out]

/-- Settles O51: by the instruction the tick runs. -/
theorem outputOnlyGrows : Obligations.OutputOnlyGrows := by
  intro p s t hh hs h
  rw [tickWith_eq_runFetched hh hs] at h
  have hout := runFetched_out h
  rw [State.interruptCheck_out] at hout
  generalize s.interruptCheck.fetch.instr p = i at hout ⊢
  cases i with
  | prn r => exact .inl ⟨r, rfl, hout⟩
  | pra r => exact .inr (.inl ⟨r, rfl, hout⟩)
  | _ => exact .inr (.inr ⟨fun r => ⟨nofun, nofun⟩, hout.trans (List.append_nil s.out)⟩)

/-! ### Nothing reads OUT -/

/-- The state with more output in front of its OUT. -/
def State.prependOut (earlier : List OutEvent) (s : State) : State := { s with out := earlier ++ s.out }

section
variable (earlier : List OutEvent) (s : State)

theorem emit_prependOut (e : OutEvent) : (s.prependOut earlier).emit e = (s.emit e).prependOut earlier := by
  simp [State.emit, State.prependOut]

theorem push_prependOut (v : Byte) : (s.prependOut earlier).push v = (s.push v).prependOut earlier := rfl

theorem pushRegs_prependOut (rs : List Reg) :
    (s.prependOut earlier).pushRegs rs = (s.pushRegs rs).prependOut earlier := by
  induction rs generalizing s with
  | nil => rfl
  | cons r rs ih => exact ih (s.push (s.reg r))

theorem takeInterrupt_prependOut (i : Source) :
    (s.prependOut earlier).takeInterrupt i = (s.takeInterrupt i).prependOut earlier := by
  have hack : ((s.prependOut earlier).setIe false).clearPending i =
      ((s.setIe false).clearPending i).prependOut earlier := rfl
  have hpc (t : State) : (t.prependOut earlier).pc = t.pc := rfl
  have hload (t : State) (a : Byte) : ((t.prependOut earlier).setPc ((t.prependOut earlier).readMem a)).setPcf true =
      ((t.setPc (t.readMem a)).setPcf true).prependOut earlier := rfl
  simp only [State.takeInterrupt, hack, hpc, push_prependOut, pushRegs_prependOut, hload]

theorem returnFromInterrupt_prependOut :
    (s.prependOut earlier).returnFromInterrupt = s.returnFromInterrupt.prependOut earlier := by
  rw [State.returnFromInterrupt_eq, State.returnFromInterrupt_eq]
  rfl

theorem interruptCheck_prependOut :
    (s.prependOut earlier).interruptCheck = s.interruptCheck.prependOut earlier := by
  have hserviced : (s.prependOut earlier).serviced = s.serviced := rfl
  cases h : s.serviced with
  | none => rw [State.interruptCheck_of_none _ (hserviced.trans h), State.interruptCheck_of_none _ h]
  | some i =>
    rw [State.interruptCheck_of_some _ (hserviced.trans h), State.interruptCheck_of_some _ h,
      takeInterrupt_prependOut]

theorem execState_prependOut (i : Instr) :
    execState i (s.prependOut earlier) = (execState i s).prependOut earlier := by
  cases i with
  | prn r => exact emit_prependOut earlier s _
  | pra r => exact emit_prependOut earlier s _
  | iret => exact returnFromInterrupt_prependOut earlier s
  | _ => rfl

theorem advance_prependOut (ir : Byte) : (s.prependOut earlier).advance ir = (s.advance ir).prependOut earlier := by
  have hpcf : (s.prependOut earlier).pcf = s.pcf := rfl
  unfold State.advance
  rw [hpcf]
  split <;> rfl

theorem runState_prependOut (p : Params) : runState p (s.prependOut earlier) = (runState p s).prependOut earlier := by
  have hfetch : (s.prependOut earlier).fetch = s.fetch := rfl
  rw [runState, hfetch, execState_prependOut, advance_prependOut]
  rfl

theorem tickState_prependOut (p : Params) :
    tickState p (s.prependOut earlier) = (tickState p s).prependOut earlier := by
  have hhalt : (s.prependOut earlier).halt = s.halt := rfl
  have hserviced : (s.prependOut earlier).serviced = s.serviced := rfl
  rw [tickState, hhalt, hserviced, interruptCheck_prependOut, runState_prependOut, tickState]
  split
  · rfl
  · split <;> rfl

theorem eventState_prependOut (p : Params) {e : Event} (he : ∀ img, e ≠ .reset img) :
    eventState p e (s.prependOut earlier) = (eventState p e s).prependOut earlier := by
  cases e with
  | tick => exact tickState_prependOut earlier s p
  | raise src =>
    have hhalt : (s.prependOut earlier).halt = s.halt := rfl
    rw [eventState, State.raise, hhalt, eventState, State.raise]
    split <;> rfl
  | reset img => exact absurd rfl (he img)
  | _ => rfl

end

/-- Earlier output stays in front through every schedule without resets (R24). -/
theorem scheduleState_prependOut (p : Params) (earlier : List OutEvent) {es : List Event} (hr : noReset es)
    (s : State) : scheduleState p es (s.prependOut earlier) = (scheduleState p es s).prependOut earlier := by
  induction es generalizing s with
  | nil => rfl
  | cons e es ih =>
    rw [scheduleState, eventState_prependOut earlier s p (hr e List.mem_cons_self)]
    exact ih (fun d hd => hr d (List.mem_cons_of_mem e hd)) _

/-- Settles O52: the earlier output stays in front. -/
theorem outputIsNeverRead : Obligations.OutputIsNeverRead := by
  intro p es s t earlier hr h
  rw [runEvents_eq] at h
  cases h
  exact (runEvents_eq p es _).trans (congrArg Host.Outcome.next (scheduleState_prependOut p earlier hr s))

/-! ### The text of the output -/

/-- No event reads `OUT_RENDER`. -/
theorem eventState_outRender (p : Params) (render : List OutEvent → String) (e : Event) (s : State) :
    eventState { p with outRender := render } e s = eventState p e s := by
  cases e <;> rfl

/-- No schedule reads `OUT_RENDER`. -/
theorem scheduleState_outRender (p : Params) (render : List OutEvent → String) (es : List Event) (s : State) :
    scheduleState { p with outRender := render } es s = scheduleState p es s := by
  induction es generalizing s with
  | nil => rfl
  | cons e es ih => rw [scheduleState, eventState_outRender, ih, scheduleState]

/-- One more event appends its own text (D9). -/
theorem renderOut_append_singleton (terminator : String) (out : List OutEvent) (e : OutEvent) :
    renderOut terminator (out ++ [e]) = renderOut terminator out ++ renderEvent terminator e := by
  simp [renderOut]

/-- Settles O55: no schedule reads `OUT_RENDER`, and the default one renders the events one by one. -/
theorem outputTextIsOfEventsOnly : Obligations.OutputTextIsOfEventsOnly := by
  refine ⟨fun p render es s => ⟨?_, rfl⟩, fun s v =>
    ⟨renderOut_append_singleton _ s.out _, renderOut_append_singleton _ s.out _⟩⟩
  rw [runEvents_eq, runEvents_eq, scheduleState_outRender]

end Sys2Proof.Machine
end

section
/-! PROOFS. One tick around one instruction (40_cycle_engine.md R59 to R63): the ordinary tick, the entry tick, the word
placed for the next tick, and whole ticks under every admissible opcode assignment, then O14, O15, O16, O31, O32 and
O33. -/

namespace Sys2Proof.Machine

/-! ### The tick of a decoded instruction -/

/-- Stage 5 and the end of the tick as one update (R62, R63). -/
theorem endTick_advance (t : State) (ir : Byte) : (t.advance ir).endTick =
    { t with pc := if t.pcf then t.pc else t.pc + opcodeLength ir, pcf := false } := by
  unfold State.advance
  cases t.pcf <;> rfl

/-- The instruction that the byte-list decoder reads at `pc` is the fetched one. -/
theorem fetch_instr_of_decode {s : State} {i : Instr}
    (h : decode [s.readMem s.pc, s.readMem (s.pc + 1#8), s.readMem (s.pc + 2#8)] = .ok i) :
    s.fetch.instr Params.default = i :=
  Except.ok.inj ((decodeWith_eq_decodeFetched _ _ _ _).symm.trans h)

/-- The run of a decoded instruction. -/
theorem runFetched_of_instr {p : Params} {s : State} {i : Instr} (h : s.fetch.instr p = i) :
    runFetched p s = .next { execState i s with
      pc := if (execState i s).pcf then (execState i s).pc else (execState i s).pc + opcodeLength s.fetch.ir
      pcf := false } := by
  rw [runFetched_eq, h, endTick_advance]

/-- Settles O14: with nothing serviced the tick is the run of the decoded instruction. -/
theorem stepRunsDecodedInstruction : Obligations.StepRunsDecodedInstruction := by
  intro s i hh hs hi
  exact ⟨_, exec_eq s i, (tickWith_of_none _ hh hs).trans (runFetched_of_instr (fetch_instr_of_decode hi))⟩

/-- Settles O15: the entry set PCF, no instruction clears it, so the run does not advance. -/
theorem entryStepRunsHandlerInstruction : Obligations.EntryStepRunsHandlerInstruction := by
  intro s src i ⟨hh, hs⟩ hi
  have hpcf : (execState i (s.takeInterrupt src)).pcf = true := by
    rw [execState_pcf, State.takeInterrupt_pcf, Bool.true_or]
  refine ⟨_, exec_eq _ i, ?_⟩
  rw [step_eq_tickWith, tickWith_of_some _ hh hs rfl, runFetched_of_instr (fetch_instr_of_decode hi), if_pos hpcf]

/-! ### The placed word -/

/-- A state made ready services no source: IE is cleared if one would be (log 21). -/
theorem State.readyToFetch_serviced (s : State) : s.readyToFetch.serviced = none := by
  unfold State.readyToFetch
  cases h : (s.setHalt false).serviced with
  | none => simp [h]
  | some i => simpa [h] using State.serviced_of_ie_false _ (State.setIe_ie _ false)

/-- A state made ready runs. -/
theorem State.readyToFetch_halt (s : State) : s.readyToFetch.halt = false := by
  unfold State.readyToFetch
  dsimp only
  split <;> rfl

/-- The fetch reads the three bytes placed: their addresses are distinct. -/
theorem State.placeWord_fetch (s : State) (nbits w : Nat) :
    (s.placeWord nbits w).fetch = ⟨tableByte nbits w 0, tableByte nbits w 1, tableByte nbits w 2⟩ := by
  have h01 : s.pc ≠ s.pc + 1#8 := by bv_omega
  have h02 : s.pc ≠ s.pc + 2#8 := by bv_omega
  have h12 : s.pc + 1#8 ≠ s.pc + 2#8 := by bv_omega
  simp only [State.fetch, State.placeWord, State.writeMem_pc, State.writeMem_readMem, if_neg h01, if_neg h02,
    if_neg h12, if_true]

/-- The decoder reads from a table word what the fetch of its three bytes decodes to. -/
theorem decodeTableWord_eq (nbits w : Nat) : decodeTableWord nbits w =
    some (decodeFetched Params.default (tableByte nbits w 0) (tableByte nbits w 1) (tableByte nbits w 2)) := by
  rw [decodeTableWord, tableBytes, decode, decodeWith_eq_decodeFetched]

/-- Settles O16: the ready state's tick is the run of what its fetch reads, which is the placed word. -/
theorem placedWordRuns : Obligations.PlacedWordRuns := by
  intro s nbits w
  have hh : (s.withFetchWord nbits w).halt = false := s.readyToFetch_halt
  have hs : (s.withFetchWord nbits w).serviced = none := s.readyToFetch_serviced
  have hfetch : (s.withFetchWord nbits w).fetch = ⟨tableByte nbits w 0, tableByte nbits w 1, tableByte nbits w 2⟩ :=
    s.readyToFetch.placeWord_fetch nbits w
  have hinstr : (s.withFetchWord nbits w).fetch.instr Params.default =
      decodeFetched Params.default (tableByte nbits w 0) (tableByte nbits w 1) (tableByte nbits w 2) :=
    congrArg (Fetched.instr Params.default) hfetch
  refine ⟨_, _, decodeTableWord_eq nbits w, exec_eq _ _, ?_⟩
  rw [step_eq_tickWith, tickWith_of_none _ hh hs, runFetched_of_instr hinstr, hfetch]
  rfl

/-! ### Whole ordinary ticks -/

/-- Writing to PCF what it holds changes nothing. -/
theorem State.setPcf_eq_self {s : State} {b : Bool} (h : s.pcf = b) : s.setPcf b = s := by
  subst h
  rfl

section
variable {p : Params} {s : State} {i : Instr} {m : Mnemonic}

/-- An ordinary tick of an instruction that does not set PCF: its effect, and `pc` past it. -/
theorem tickWith_ordinary_advances (hs : s.Ordinary) (hi : s.fetch.instr p = i) (hset : Instr.setsPcf i = false) :
    tickWith p s = .next ((execState i s).setPc (s.pc + opcodeLength s.fetch.ir)) := by
  obtain ⟨hh, hnone, hpcf⟩ := hs
  have hpcf' : (execState i s).pcf = false := by rw [execState_pcf, hpcf, hset, Bool.or_false]
  rw [tickWith_of_none p hh hnone, runFetched_of_instr hi, hpcf', execState_pc_of_not_setsPcf hset]
  exact congrArg Host.Outcome.next
    (State.setPcf_eq_self (s := (execState i s).setPc (s.pc + opcodeLength s.fetch.ir)) hpcf')

/-- An ordinary tick of an instruction that sets PCF: its effect, and PCF 0 again. -/
theorem tickWith_ordinary_jumps (hs : s.Ordinary) (hi : s.fetch.instr p = i) (hset : Instr.setsPcf i = true) :
    tickWith p s = .next ((execState i s).setPcf s.pcf) := by
  obtain ⟨hh, hnone, hpcf⟩ := hs
  have hpcf' : (execState i s).pcf = true := by rw [execState_pcf, hset, Bool.or_true]
  rw [tickWith_of_none p hh hnone, runFetched_of_instr hi, if_pos hpcf', hpcf]
  rfl

/-- A byte that is a mnemonic's opcode value is decoded as that mnemonic. -/
theorem fetch_instr_of_opc (hp : p.Admissible) (h : s.readMem s.pc = p.opc m) :
    s.fetch.instr p = Instr.ofMnemonic m (s.readMem (s.pc + 1#8)) (s.readMem (s.pc + 2#8)) :=
  decodeFetched_of_some ((congrArg (mnemonicOf p) h).trans (mnemonicOf_opc hp m)) _ _

/-- An opcode value's length is one plus the mnemonic's operand count (R50 b, R62). -/
theorem opcodeLength_of_opc (hp : p.Admissible) (h : s.readMem s.pc = p.opc m) :
    opcodeLength s.fetch.ir = 1#8 + m.operandCount.setWidth 8 := by
  rw [opcodeLength, State.fetch, h, hp.2]

theorem tickWith_opc_advances (hp : p.Admissible) (hs : s.Ordinary) (h : s.readMem s.pc = p.opc m)
    (hset : Instr.setsPcf (Instr.ofMnemonic m (s.readMem (s.pc + 1#8)) (s.readMem (s.pc + 2#8))) = false) :
    tickWith p s = .next ((execState
      (Instr.ofMnemonic m (s.readMem (s.pc + 1#8)) (s.readMem (s.pc + 2#8))) s).setPc
        (s.pc + (1#8 + m.operandCount.setWidth 8))) := by
  rw [tickWith_ordinary_advances hs (fetch_instr_of_opc hp h) hset, opcodeLength_of_opc hp h]

theorem tickWith_opc_jumps (hp : p.Admissible) (hs : s.Ordinary) (h : s.readMem s.pc = p.opc m)
    (hset : Instr.setsPcf (Instr.ofMnemonic m (s.readMem (s.pc + 1#8)) (s.readMem (s.pc + 2#8))) = true) :
    tickWith p s = .next ((execState
      (Instr.ofMnemonic m (s.readMem (s.pc + 1#8)) (s.readMem (s.pc + 2#8))) s).setPcf s.pcf) :=
  tickWith_ordinary_jumps hs (fetch_instr_of_opc hp h) hset

/-- The length of an opcode byte by the quarter of the opcode space it lies in (R45). -/
theorem opcodeLength_of_quarter {ir : Byte} {k : Nat} (h : ir.toNat / 64 = k) :
    opcodeLength ir = BitVec.ofNat 8 (1 + k) := by
  refine BitVec.eq_of_toNat_eq ?_
  have := ir.isLt
  rw [show opcodeLength ir = 1#8 + ir >>> 6 from opcodeLength_eq_shift ir]
  simp only [BitVec.toNat_add, BitVec.toNat_ofNat, BitVec.toNat_ushiftRight,
    Nat.shiftRight_eq_div_pow]
  omega

/-- An ordinary tick of an unrecognised opcode moves `pc` by its length and does nothing else (R65; D4). -/
theorem tickWith_unrecognised {k : Nat} (hs : s.Ordinary) (h : p.unrecognised (s.readMem s.pc) = true)
    (hk : (s.readMem s.pc).toNat / 64 = k) :
    tickWith p s = .next { s with pc := s.pc + BitVec.ofNat 8 (1 + k) } := by
  rw [tickWith_ordinary_advances hs (decodeFetched_of_unrecognised h _ _) rfl, State.fetch,
    opcodeLength_of_quarter hk]
  rfl

end

/-- Settles O31: each is an instruction that advances, by three bytes. -/
theorem threeByteTicks : Obligations.ThreeByteTicks := fun _ hp _ hs =>
  ⟨fun h => tickWith_opc_advances hp hs h rfl, fun h => tickWith_opc_advances hp hs h rfl,
    fun h => tickWith_opc_advances hp hs h rfl, fun h => tickWith_opc_advances hp hs h rfl⟩

/-- Settles O32: CALL and JMP jump, the others advance by two bytes. -/
theorem twoByteTicks : Obligations.TwoByteTicks := fun _ hp _ hs =>
  ⟨fun h => tickWith_opc_advances hp hs h rfl, fun h => tickWith_opc_advances hp hs h rfl,
    fun h => tickWith_opc_jumps hp hs h rfl, fun h => tickWith_opc_jumps hp hs h rfl,
    fun h => tickWith_opc_advances hp hs h rfl, fun h => tickWith_opc_advances hp hs h rfl⟩

/-- Settles O33: RET and IRET jump, HLT advances by one byte, an unrecognised byte by its quarter. -/
theorem oneByteAndUndefTicks : Obligations.OneByteAndUndefTicks := by
  intro p hp s hs
  refine ⟨fun h => tickWith_opc_jumps hp hs h rfl, fun h => ?_, fun h => tickWith_opc_advances hp hs h rfl,
    fun hu => ⟨fun hq => tickWith_unrecognised (k := 0) hs hu ?_, fun hq => tickWith_unrecognised (k := 1) hs hu ?_,
      fun hq => tickWith_unrecognised (k := 2) hs hu ?_, fun hq => tickWith_unrecognised (k := 3) hs hu ?_⟩⟩
  · rw [tickWith_opc_jumps hp hs h rfl, Instr.ofMnemonic, execState, State.returnFromInterrupt_eq]
    rfl
  all_goals
    have := (s.readMem s.pc).isLt
    omega

end Sys2Proof.Machine
end

section
/-! PROOFS. What each instruction does when it executes and what it keeps (41_data_movement.md, 43_stack.md,
44_control_transfer.md, 45_system.md), and the two round trips over the stack, then O19, O20, O22 to O30, O34 and
O35. -/

namespace Sys2Proof.Machine

/-! ### Frames of the shared operations -/

/-- What is kept except at a register is kept except at more registers. -/
theorem RegsKeptExcept.mono {rs qs : List Reg} {s t : State} (h : RegsKeptExcept rs s t) (hsub : rs ⊆ qs) :
    RegsKeptExcept qs s t := fun r hr => h r fun hm => hr (hsub hm)

theorem RegsKeptExcept.refl (rs : List Reg) (s : State) : RegsKeptExcept rs s s := fun _ _ => rfl

theorem MemKeptExcept.refl (addrs : List Byte) (s : State) : MemKeptExcept addrs s s := fun _ _ => rfl

theorem RegsKeptExcept.trans {rs : List Reg} {s t u : State} (h : RegsKeptExcept rs s t)
    (h' : RegsKeptExcept rs t u) : RegsKeptExcept rs s u := fun r hr => (h' r hr).trans (h r hr)

theorem MemKeptExcept.trans {addrs : List Byte} {s t u : State} (h : MemKeptExcept addrs s t)
    (h' : MemKeptExcept [] t u) : MemKeptExcept addrs s u :=
  fun a ha => (h' a List.not_mem_nil).trans (h a ha)

theorem FlagsKept.trans {s t u : State} : FlagsKept s t → FlagsKept t u → FlagsKept s u
  | ⟨hie, hpcf, hhalt⟩, ⟨hie', hpcf', hhalt'⟩ => ⟨hie'.trans hie, hpcf'.trans hpcf, hhalt'.trans hhalt⟩

/-- A store keeps every other byte (R29). -/
theorem State.writeMem_memKept (s : State) (a v : Byte) : MemKeptExcept [a] s (s.writeMem a v) :=
  fun _ hb => s.writeMem_readMem_of_ne v (List.ne_of_not_mem_cons hb)

/-- A register write keeps every other register. -/
theorem State.setReg_regsKept (s : State) (r : Reg) (v : Byte) : RegsKeptExcept [r] s (s.setReg r v) :=
  (s.setReg_keeps_rest r v).1

/-- A push keeps every register but SP (R76). -/
theorem State.push_regsKept (s : State) (v : Byte) : RegsKeptExcept [.sp] s (s.push v) :=
  fun _ hr => s.push_reg_of_ne v (List.ne_of_not_mem_cons hr)

/-- A push keeps every byte but the one below the old SP (R76). -/
theorem State.push_memKept (s : State) (v : Byte) : MemKeptExcept [s.pushAddr] s (s.push v) :=
  fun _ hb => (s.push_readMem v _).trans (if_neg (List.ne_of_not_mem_cons hb))

/-- The byte pushed stands below the old SP (R76). -/
theorem State.push_readMem_self (s : State) (v : Byte) : (s.push v).readMem (s.reg .sp - 1#8) = v :=
  (s.push_readMem v _).trans (if_pos rfl)

/-! ### The instructions -/

/-- Settles O19: LDI is a register write. -/
theorem ldiLoadsImmediate : Obligations.LdiLoadsImmediate := fun rA imm s =>
  ⟨_, exec_ldi s rA imm, s.setReg_reg_self rA imm, s.setReg_keeps_rest rA imm⟩

/-- Settles O20: ST is a store. -/
theorem stStoresRegister : Obligations.StStoresRegister := fun rA rB s =>
  ⟨_, exec_st s rA rB, rfl, s.writeMem_readMem_self _ _, s.writeMem_memKept _ _, RegsKeptExcept.refl [] s,
    ⟨rfl, rfl, rfl⟩, rfl, rfl⟩

/-- Settles O22: PUSH is a push of the register's value before SP is lowered. -/
theorem pushStoresBelowStack : Obligations.PushStoresBelowStack := fun rA s =>
  ⟨_, exec_push s rA, rfl, s.push_reg_sp _, s.push_readMem_self _, s.push_memKept _, s.push_regsKept _,
    ⟨rfl, rfl, rfl⟩, rfl, rfl⟩

/-- Settles O23: POP writes SP, then the register. -/
theorem popReadsStackTop : Obligations.PopReadsStackTop := by
  intro rA s
  have hsp : RegsKeptExcept [rA, .sp] s (s.setReg .sp (s.reg .sp + 1#8)) :=
    (s.setReg_regsKept _ _).mono (List.subset_cons_self _ _)
  have hrA (t : State) (v : Byte) : RegsKeptExcept [rA, .sp] t (t.setReg rA v) :=
    (t.setReg_regsKept _ _).mono (List.cons_subset_cons _ (List.nil_subset _))
  refine ⟨_, exec_pop s rA, State.setReg_reg_self _ _ _, fun hne => ?_, hsp.trans (hrA _ _), MemKeptExcept.refl [] s,
    ⟨rfl, rfl, rfl⟩, rfl, rfl⟩
  rw [State.setReg_reg_of_ne _ _ hne.symm, State.setReg_reg_self]

/-- Settles O24: CALL pushes the return address, then reads its target. -/
theorem callPushesReturnAddress : Obligations.CallPushesReturnAddress := fun rA s =>
  let v := s.pc + 2#8
  ⟨_, exec_call s rA, s.push_reg_sp v, s.push_readMem_self v, s.push_reg rA v, rfl, s.push_memKept v, rfl,
    s.push_regsKept v, rfl, rfl, rfl⟩

/-- Settles O25: JMP writes `pc` and PCF. -/
theorem jmpLoadsPc : Obligations.JmpLoadsPc := fun rA s =>
  ⟨_, exec_jmp s rA, rfl, rfl, RegsKeptExcept.refl [] s, MemKeptExcept.refl [] s, rfl, rfl, rfl⟩

/-- Settles O26: RET writes SP, `pc` and PCF. -/
theorem retPopsPc : Obligations.RetPopsPc := fun s =>
  let sp := s.reg .sp + 1#8
  ⟨_, exec_ret s, rfl, s.setReg_reg_self .sp sp, rfl, s.setReg_regsKept .sp sp, MemKeptExcept.refl [] s, rfl, rfl, rfl⟩

/-- Settles O27: each clause is one field of the return from interrupt. -/
theorem iretPopsFrame : Obligations.IretPopsFrame := fun s =>
  ⟨_, exec_iret s, s.returnFromInterrupt_reg .r6, s.returnFromInterrupt_reg .r5, s.returnFromInterrupt_reg .r4,
    s.returnFromInterrupt_reg .r3, s.returnFromInterrupt_reg .r2, s.returnFromInterrupt_reg .r1,
    s.returnFromInterrupt_reg .r0, s.returnFromInterrupt_pc, s.returnFromInterrupt_reg .r7, s.returnFromInterrupt_ie,
    s.returnFromInterrupt_pcf, fun a _ => s.returnFromInterrupt_readMem a, s.returnFromInterrupt_halt,
    s.returnFromInterrupt_out⟩

/-- Emitting an event keeps all but OUT. -/
theorem State.emit_keeps_rest (s : State) (e : OutEvent) : RegsKeptExcept [] s (s.emit e) ∧
    MemKeptExcept [] s (s.emit e) ∧ FlagsKept s (s.emit e) ∧ (s.emit e).pc = s.pc :=
  ⟨RegsKeptExcept.refl [] s, MemKeptExcept.refl [] s, ⟨rfl, rfl, rfl⟩, rfl⟩

/-- Settles O28: PRN and PRA emit. -/
theorem printsEmitOneEvent : Obligations.PrintsEmitOneEvent :=
  ⟨fun rA s => ⟨_, exec_prn s rA, s.emit_out _, s.emit_keeps_rest _⟩,
    fun rA s => ⟨_, exec_pra s rA, s.emit_out _, s.emit_keeps_rest _⟩⟩

/-- Settles O29: HLT writes HALT. -/
theorem hltSetsHalt : Obligations.HltSetsHalt := fun s =>
  ⟨_, exec_hlt s, rfl, RegsKeptExcept.refl [] s, MemKeptExcept.refl [] s, rfl, rfl, rfl, rfl⟩

/-- Settles O30: the meaning of UNDEF is the state it finds. -/
theorem undefChangesNothing : Obligations.UndefChangesNothing := fun ir s => exec_undef s ir

/-! ### Round trips over the stack -/

/-- Settles O34: the POP reads the byte that the PUSH stored, and raises SP to where it was. -/
theorem pushPopRoundTrip : Obligations.PushPopRoundTrip := by
  intro n m s _ hm
  obtain ⟨t, ht, -, htsp, htop, htmem, htregs, htflags, htpc, htout⟩ := pushStoresBelowStack n s
  obtain ⟨u, hu, hum, husp, huregs, humem, huflags, hupc, huout⟩ := popReadsStackTop m t
  have hsp : u.reg .sp = s.reg .sp := by rw [husp hm, htsp, BitVec.sub_add_cancel]
  refine ⟨t, u, ht, hu, by rw [hum, htsp, htop], hsp, fun r hr => ?_, htmem.trans humem, htflags.trans huflags,
    hupc.trans htpc, huout.trans htout⟩
  by_cases hrsp : r = .sp
  · rw [hrsp, hsp]
  · have hrm := List.ne_of_not_mem_cons hr
    rw [huregs r (by simp [hrm, hrsp]), htregs r (by simp [hrsp])]

/-- Settles O35: the RET reads the return address that the CALL stored, and raises SP to where it was. -/
theorem callRetRoundTrip : Obligations.CallRetRoundTrip := by
  intro rA s t c ht hcsp hctop
  obtain ⟨t', ht', htsp, httop, -⟩ := callPushesReturnAddress rA s
  cases ht'.symm.trans ht
  obtain ⟨u, hu, hupc, husp, -, huregs, humem, -⟩ := retPopsPc c
  exact ⟨u, hu, by rw [hupc, hctop, htsp, httop], by rw [husp, hcsp, htsp, BitVec.sub_add_cancel], huregs, humem⟩

end Sys2Proof.Machine
end

section
/-! PROOFS. Where bytes are stored (20_memory.md R28 to R32; 70_reset_and_hazards.md R112, R114): canonical memories,
the loader's image, reset, and the bytes a tick keeps, then O1, O49, O53 and O54. -/

namespace Sys2Proof.Machine

/-! ### Canonical memories -/

/-- An address at which no cell stands reads as unlisted. -/
theorem Memory.read_of_forall_ne {m : Memory} {a : Byte} (h : ∀ c ∈ m, c.1 ≠ a.toNat) :
    Memory.read m a = Config.unlistedByte := by
  induction m with
  | nil => rfl
  | cons c m ih =>
    rw [Memory.read_cons, if_neg (h c List.mem_cons_self)]
    exact ih fun d hd => h d (List.mem_cons_of_mem c hd)

/-- A cell of a canonical memory is what its address reads. -/
theorem Memory.read_of_mem {m : Memory} (hm : m.wf) {c : Host.Cell} (hc : c ∈ m) {a : Byte} (ha : c.1 = a.toNat) :
    Memory.read m a = c.2 := by
  induction m with
  | nil => cases hc
  | cons d m ih =>
    obtain ⟨hlt, hsorted⟩ := List.pairwise_cons.1 hm.1
    rw [Memory.read_cons]
    obtain rfl | hc := List.mem_cons.1 hc
    · exact if_pos ha
    · rw [if_neg (ha ▸ (hlt c hc).ne)]
      exact ih ⟨hsorted, fun e he => hm.2 e (List.mem_cons_of_mem d he)⟩ hc

/-- The cells of a canonical memory are the addresses that do not read as unlisted, with the byte they read. -/
theorem Memory.mem_iff_read {m : Memory} (hm : m.wf) (c : Host.Cell) : c ∈ m ↔
    c.1 < 256 ∧ c.2 ≠ Config.unlistedByte ∧ Memory.read m (BitVec.ofNat 8 c.1) = c.2 := by
  have toNat (h : c.1 < 256) : c.1 = (BitVec.ofNat 8 c.1).toNat := (Nat.mod_eq_of_lt h).symm
  constructor
  · intro hc
    obtain ⟨hlt, hne⟩ := hm.2 c hc
    exact ⟨hlt, hne, Memory.read_of_mem hm hc (toNat hlt)⟩
  · intro ⟨hlt, hne, hread⟩
    by_cases h : ∀ d ∈ m, d.1 ≠ (BitVec.ofNat 8 c.1).toNat
    · exact absurd (hread.symm.trans (Memory.read_of_forall_ne h)) hne
    · push Not at h
      obtain ⟨d, hd, hda⟩ := h
      have hdc : d = c := Prod.ext (hda.trans (toNat hlt).symm) ((Memory.read_of_mem hm hd hda).symm.trans hread)
      exact hdc ▸ hd

/-- Settles O53: two sorted lists with the same cells are equal, and the reads determine the cells. -/
theorem equalMemoriesAreEqualData : Obligations.EqualMemoriesAreEqualData := by
  intro m n hm hn h
  have : Std.Irrefl (fun c d : Host.Cell => c.1 < d.1) := ⟨fun c => Nat.lt_irrefl c.1⟩
  have : Std.Antisymm (fun c d : Host.Cell => c.1 < d.1) := ⟨fun c d hcd hdc => absurd hcd (Nat.lt_asymm hdc)⟩
  refine hm.1.eq_of_mem_iff hn.1 fun c => ?_
  rw [Memory.mem_iff_read hm, Memory.mem_iff_read hn, h]

/-! ### The image and reset -/

/-- After the writes of an image's bytes at some addresses, those read as the image and the others as before. -/
theorem Memory.read_foldl_write (img : Image) (ks : List (Fin 256)) (m : Memory) (k : Fin 256) :
    Memory.read (ks.foldl (fun m k => Memory.write m (BitVec.ofNat 8 k.val) (img.get k)) m) (BitVec.ofFin k) =
      if k ∈ ks then img.get k else Memory.read m (BitVec.ofFin k) := by
  have addr (j : Fin 256) : BitVec.ofFin k = BitVec.ofNat 8 j.val ↔ k = j := by
    rw [← BitVec.toNat_inj, BitVec.toNat_ofNat, Nat.mod_eq_of_lt j.isLt]
    exact Fin.val_inj
  induction ks generalizing m with
  | nil => rfl
  | cons j ks ih =>
    rw [List.foldl_cons, ih, Memory.read_write]
    simp only [addr]
    by_cases hj : k = j
    · simp [hj]
    · simp [hj]

/-- The memory of an image reads as the image (R114). -/
theorem Memory.read_ofImage (img : Image) (k : Fin 256) :
    Memory.read (Memory.ofImage img) (BitVec.ofFin k) = img.get k := by
  unfold Memory.ofImage
  rw [Memory.read_foldl_write, if_pos (List.mem_finRange k)]

/-- Settles O54: the loaded memory is that of the image, and `load` writes memory alone. -/
theorem loadWritesImage : Obligations.LoadWritesImage := fun _ img s =>
  ⟨s.load img, rfl, Memory.read_ofImage img, Memory.ofImage_wf img, rfl, rfl, ⟨rfl, rfl, rfl⟩, rfl⟩

/-- R0 to R6 are 0 after reset (D7). -/
theorem State.reset_reg_of_ne_sp {r : Reg} (h : r ≠ .sp) : State.reset.reg r = 0x00#8 := by
  cases r with
  | r7 => exact absurd rfl h
  | _ => rfl

/-- Settles O1: a reset is the load of the image into the state after reset. -/
theorem resetValues : Obligations.ResetValues :=
  ⟨fun _ img _ => ⟨State.resetWith img, rfl, rfl, rfl, rfl, fun _ => State.reset_reg_of_ne_sp, rfl, rfl, rfl,
      Memory.read_ofImage img⟩,
    rfl, rfl, rfl, fun _ => State.reset_reg_of_ne_sp, rfl, rfl, rfl, fun _ => rfl⟩

/-! ### The bytes a tick keeps -/

/-- A byte at which nothing is stored is the old one. -/
theorem byteAfter_of_not_mem {stores : List (Byte × Byte)} {a : Byte} (h : a ∉ stores.map Prod.fst) (s : State) :
    byteAfter stores s a = s.readMem a := by
  induction stores with
  | nil => rfl
  | cons c stores ih =>
    rw [List.map_cons, List.mem_cons, not_or] at h
    rw [← Prod.mk.eta (p := c), byteAfter_cons, if_neg h.1, ih h.2]

/-- Execute keeps every byte outside the instruction's store (R32). -/
theorem execState_memKept (i : Instr) (s : State) : MemKeptExcept (storeAddrs i s) s (execState i s) :=
  fun _ ha => (execState_readMem s i _).trans (byteAfter_of_not_mem ha s)

/-- The interrupt check keeps every byte outside an entry's frame (R96). -/
theorem State.interruptCheck_memKept (s : State) : MemKeptExcept (entryAddrs s) s s.interruptCheck := by
  unfold entryAddrs
  cases h : s.serviced with
  | none => rw [s.interruptCheck_of_none h]; exact fun _ _ => rfl
  | some i => rw [s.interruptCheck_of_some h]; exact s.takeInterrupt_memKept i

/-- Settles O49: each way of a tick stores what the check and execute store, and nothing else. -/
theorem tickStoresOnlyWhereSaid : Obligations.TickStoresOnlyWhereSaid := by
  refine ⟨fun i s t h => exec_next h ▸ execState_memKept i s, fun p s t h a ha => ?_⟩
  rw [List.mem_append, not_or] at ha
  have hcheck := s.interruptCheck_memKept a ha.1
  obtain ⟨-, rfl⟩ | ⟨-, -, -, rfl⟩ | ⟨-, -, rfl⟩ := tickWith_cases h
  · rfl
  · exact hcheck
  · rw [endTick_readMem, advance_readMem]
    exact (execState_memKept _ _ a ha.2).trans hcheck

end Sys2Proof.Machine
end

section
/-! PROOFS. Interrupts from the raise to the return (60_exceptions.md R92, R95 to R102; 70_reset_and_hazards.md R117,
R120): the frame and the vector table, the raise, the return, and the tick that enters a handler, then O38, O39 and O42
to O46. -/

namespace Sys2Proof.Machine

/-! ### The frame and the vector table -/

/-- With SP from 8 to 0xF8 every frame address lies below the table, which starts at 0xF8 (R120). -/
theorem vectorAddr_not_mem_frameAddrs {s : State} (h : s.FrameClearOfTable) (j : Source) :
    vectorAddr j ∉ frameAddrs s := by
  obtain ⟨hlow, hhigh⟩ := h
  have htable : 0xF8 ≤ (vectorAddr j).toNat := by
    revert j
    decide
  intro hmem
  simp only [frameAddrs, List.mem_cons, List.not_mem_nil, or_false] at hmem
  generalize vectorAddr j = a at htable hmem
  generalize s.reg .sp = sp at hlow hhigh hmem
  obtain rfl | rfl | rfl | rfl | rfl | rfl | rfl | rfl := hmem
  all_goals bv_omega

/-- Settles O38: the entry keeps every byte outside its frame, and the table lies outside. -/
theorem entryLeavesVectorTable : Obligations.EntryLeavesVectorTable := by
  intro s i hi hclear
  rw [s.interruptCheck_of_some hi]
  have hkept (j : Source) := s.takeInterrupt_memKept i _ (vectorAddr_not_mem_frameAddrs hclear j)
  exact ⟨hkept, (s.takeInterrupt_pc i).trans (hkept i)⟩

/-- Settles O39: the eight bytes that IRET pops are the ones that the entry pushed. -/
theorem iretUndoesEntry : Obligations.IretUndoesEntry := by
  intro s u i hi hsp hframe
  have hie := ((s.serviced_eq_some i).1 hi).1
  obtain ⟨-, -, hlow, -, b1, b2, b3, b4, b5, b6, b7, b8, -⟩ := interruptEntry.1 s i hi
  obtain ⟨t, ht, h6, h5, h4, h3, h2, h1, h0, hpc, h7, htie, -, hmem, hhalt, hout⟩ := iretPopsFrame u
  rw [hsp, hlow] at h6 h5 h4 h3 h2 h1 h0 hpc h7
  have up (k j : Byte) : s.reg .sp - k + j = s.reg .sp - (k - j) := by bv_omega
  simp only [frameAddrs, List.mem_cons, List.not_mem_nil, or_false, forall_eq_or_imp, forall_eq] at hframe
  obtain ⟨f1, f2, f3, f4, f5, f6, f7, f8⟩ := hframe
  simp only [up, BitVec.reduceSub, f1, f2, f3, f4, f5, f6, f7, f8, b1, b2, b3, b4, b5, b6, b7, b8]
    at h6 h5 h4 h3 h2 h1 h0 hpc
  refine ⟨t, ht, hpc, htie.trans hie.symm, fun r hr => ?_, h6, hmem, hhalt, hout⟩
  cases r with
  | r0 => exact h0
  | r1 => exact h1
  | r2 => exact h2
  | r3 => exact h3
  | r4 => exact h4
  | r5 => exact h5
  | r6 => exact absurd List.mem_cons_self hr
  | r7 => rw [h7, BitVec.sub_add_cancel]

/-! ### The raise -/

/-- The byte of a source has that source's bit and no other. -/
theorem sourceBit_getLsbD (i j : Source) : (sourceBit i).getLsbD j.val = decide (j = i) := by
  revert i j
  decide

/-- A raise of a running machine sets the source's bit of IS (R92). -/
theorem State.raise_of_running {s : State} (h : s.halt = false) (src : ExtSource) :
    s.raise src = s.setPending src.source := by
  rw [State.raise, h]
  rfl

/-- A second raise of the same source changes nothing more. -/
theorem State.raise_raise (s : State) (src : ExtSource) : (s.raise src).raise src = s.raise src := by
  cases h : s.halt with
  | true => rw [State.raise_of_halt h, State.raise_of_halt h]
  | false =>
    have hor : (s.setPending src.source).reg .is ||| sourceBit src.source = (s.setPending src.source).reg .is := by
      rw [State.setPending_reg, if_pos rfl, BitVec.or_assoc, BitVec.or_self]
    rw [State.raise_of_running h, State.raise_of_running (s := s.setPending src.source) h,
      State.setPending, hor]
    rfl

/-- Settles O42: a raise is a register write of IS, and its byte has one bit more. -/
theorem raiseSetsPendingBit : Obligations.RaiseSetsPendingBit := by
  refine fun p src s => ⟨s.raise src, rfl, fun h => State.raise_of_halt h src, fun h => ?_,
    congrArg Host.Outcome.next (s.raise_raise src)⟩
  rw [State.raise_of_running h]
  refine ⟨fun j => ?_, s.setReg_regsKept _ _, rfl, ⟨rfl, rfl, rfl⟩, rfl, rfl⟩
  rw [State.setPending_reg, if_pos rfl, BitVec.getLsbD_or, sourceBit_getLsbD]

/-- Settles O43: IRET overwrites R6, and reads nothing that a raise changes. -/
theorem raiseBeforeIretIsLost : Obligations.RaiseBeforeIretIsLost := by
  refine fun src s => ⟨_, exec_iret s, ?_⟩
  rw [exec_iret]
  cases h : s.halt with
  | true => rw [State.raise_of_halt h]
  | false =>
    rw [State.raise_of_running h, State.returnFromInterrupt_eq, State.returnFromInterrupt_eq]
    rfl

/-- Settles O44: after the LDI the check sees `v` in IS, and IM and IE as they were. -/
theorem softwareRaisesInterrupt : Obligations.SoftwareRaisesInterrupt := by
  intro p s t v hs hie hi h
  rw [tickWith_ordinary_advances hs hi rfl] at h
  cases h
  refine ⟨hie, ?_, rfl⟩
  exact if_pos hie

/-! ### The tick that enters a handler -/

/-- With no source serviced a running machine's tick is stages 2 to 5. -/
theorem tickState_of_none {p : Params} {s : State} (hh : s.halt = false) (hs : s.serviced = none) :
    tickState p s = runState p s :=
  Host.Outcome.next.inj <| (tickWith_eq p s).symm.trans <|
    (tickWith_of_none p hh hs).trans (runFetched_eq_runState p s)

/-- In a state with PCF 1, stages 2 to 5 are execute, with no advance, and PCF 0 at the end (R62, R68). -/
theorem runState_of_pcf {p : Params} {s : State} (h : s.pcf = true) :
    runState p s = (execState (s.fetch.instr p) s).setPcf false := by
  have hpcf : (execState (s.fetch.instr p) s).pcf = true := by rw [execState_pcf, h, Bool.true_or]
  rw [runState, State.advance, if_pos hpcf]
  rfl

/-- The tick that enters a handler and executes there (R68). -/
theorem tickState_enters {p : Params} {s : State} {src : Source} (hp : p.entryTickExecutes = true)
    (hs : s.Enters src) : tickState p s =
      (execState ((s.takeInterrupt src).fetch.instr p) (s.takeInterrupt src)).setPcf false := by
  rw [← runState_of_pcf (State.takeInterrupt_pcf s src)]
  exact Host.Outcome.next.inj <| (tickWith_eq p s).symm.trans <|
    (tickWith_of_some p hs.1 hs.2 hp).trans (runFetched_eq_runState p _)

/-- The tick that enters a handler and ends there (R68). -/
theorem tickState_enters_only {p : Params} {s : State} {src : Source} (hp : p.entryTickExecutes = false)
    (hs : s.Enters src) : tickState p s = (s.takeInterrupt src).setPcf false :=
  Host.Outcome.next.inj <| (tickWith_eq p s).symm.trans (tickWith_of_entry_only p hs.1 hs.2 hp)

/-- An instruction that does not set PCF is no IRET, and so keeps IE. -/
theorem execState_ie_of_not_setsPcf {i : Instr} (h : Instr.setsPcf i = false) (s : State) :
    (execState i s).ie = s.ie := by
  rw [execState_ie, if_neg fun hi => by rw [hi] at h; cases h]

/-- Two states with the same `pc` whose three bytes there are the same fetch the same. -/
theorem fetch_eq_of_readMem {s t : State} (hpc : t.pc = s.pc)
    (h : ∀ a ∈ [s.pc, s.pc + 1#8, s.pc + 2#8], t.readMem a = s.readMem a) : t.fetch = s.fetch := by
  simp only [List.mem_cons, List.not_mem_nil, or_false, forall_eq_or_imp, forall_eq] at h
  obtain ⟨h0, h1, h2⟩ := h
  simp only [State.fetch, hpc, h0, h1, h2]

/-- Settles O45: the entry tick leaves `pc` at the handler and IE 0, so the next tick fetches there and runs. -/
theorem firstHandlerInstructionRunsAgain : Obligations.FirstHandlerInstructionRunsAgain := by
  intro p s t src hp hs u hset h
  rw [tickWith_eq, tickState_enters hp hs] at h
  cases h
  have hpc : ((execState (u.fetch.instr p) u).setPcf false).pc = u.pc := execState_pc_of_not_setsPcf hset u
  have hnone : ((execState (u.fetch.instr p) u).setPcf false).serviced = none :=
    State.serviced_of_ie_false _ ((execState_ie_of_not_setsPcf hset u).trans (s.takeInterrupt_ie src))
  have hruns (hne : u.fetch.instr p ≠ .hlt) : ((execState (u.fetch.instr p) u).setPcf false).halt = false := by
    rw [State.setPcf_halt, execState_halt, s.takeInterrupt_halt, hs.1, decide_eq_false hne, Bool.or_false]
  refine ⟨hpc, hnone, fun hmiss => ?_, fun hne => ⟨hruns hne, tickWith_of_none p (hruns hne) hnone⟩⟩
  have hfetch := fetch_eq_of_readMem hpc fun a ha => execState_memKept _ u a (hmiss a ha)
  refine ⟨hfetch, by rw [hfetch], fun hne => ?_⟩
  rw [tickWith_of_none p (hruns hne) hnone, runFetched, hfetch]

/-! ### The two readings of the entry tick -/

/-- LDI and an unrecognised byte change the registers alone, by a function that a second application leaves as it is. -/
theorem execState_regs_idempotent {i : Instr} (h : (∃ r v, i = .ldi r v) ∨ ∃ ir, i = .undef ir) :
    ∃ f : RegFile → RegFile, (∀ g, f (f g) = f g) ∧ ∀ s, execState i s = { s with regs := f s.regs } := by
  obtain ⟨r, v, rfl⟩ | ⟨ir, rfl⟩ := h
  · exact ⟨fun g => g.set r v, fun g => g.set_set r v v, fun s => rfl⟩
  · exact ⟨id, fun g => rfl, fun s => rfl⟩

/-- Running such an instruction before its tick makes no difference to the state after it. -/
theorem runState_after_execState {p : Params} {s : State} {i : Instr}
    (h : (∃ r v, i = .ldi r v) ∨ ∃ ir, i = .undef ir) (hi : s.fetch.instr p = i) :
    runState p (execState i s) = runState p s := by
  obtain ⟨f, hf, hexec⟩ := execState_regs_idempotent h
  have hfetch : (execState i s).fetch = s.fetch := by rw [hexec]; rfl
  have htwice : execState i (execState i s) = execState i s := by
    rw [hexec, hexec]
    exact congrArg (fun g => { s with regs := g }) (hf s.regs)
  rw [runState, hfetch, hi, htwice, runState, hi]

/-- From a running state with IE 0, the tick after such an instruction's effect ends where the tick without it ends,
under either reading. -/
theorem tickState_after_execState {p q : Params} {s : State} {i : Instr} (hq : q.opc = p.opc)
    (h : (∃ r v, i = .ldi r v) ∨ ∃ ir, i = .undef ir) (hi : s.fetch.instr p = i) (hh : s.halt = false)
    (hie : s.ie = false) : tickState p (execState i s) = tickState q s := by
  obtain ⟨f, -, hexec⟩ := execState_regs_idempotent h
  have hh' : (execState i s).halt = false := by rw [hexec]; exact hh
  have hie' : (execState i s).ie = false := by rw [hexec]; exact hie
  have hrun : runState q s = runState p s := by
    simp only [runState, Fetched.instr, decodeFetched, mnemonicOf, hq]
  rw [tickState_of_none hh' (State.serviced_of_ie_false _ hie'), runState_after_execState h hi,
    tickState_of_none hh (State.serviced_of_ie_false _ hie), hrun]

/-- Settles O46: the second tick of either reading runs the handler's first instruction, in the one reading after a
run of it that makes no difference. -/
theorem entryReadingsAgree : Obligations.EntryReadingsAgree := by
  intro p s src hs hi
  obtain ⟨f, -, hexec⟩ := execState_regs_idempotent hi
  have hfirst : tickState { p with entryTickExecutes := true } s =
      execState ((s.takeInterrupt src).fetch.instr p) ((s.takeInterrupt src).setPcf false) := by
    rw [tickState_enters rfl hs, hexec]
    exact congrArg (State.setPcf · false) (hexec _)
  simp only [runEvents_eq, scheduleState, eventState]
  rw [hfirst, tickState_enters_only rfl hs]
  exact congrArg Host.Outcome.next
    (tickState_after_execState rfl hi rfl ((s.takeInterrupt_halt src).trans hs.1) (s.takeInterrupt_ie src))

end Sys2Proof.Machine
end
